-- ==== Sys2Proof/Word.lean ====
section
/-! DEFINITION. The two widths the block knows (R4 P12, R6, R85): the byte and the 16-bit word, both
unsigned bit vectors. -/

namespace Sys2Proof

/-- One element of a byte stream or one buffer cell (R6, R4 P12). -/
abbrev Byte := BitVec 8

/-- A CRC value or a 16-bit header field (R4, R85). -/
abbrev Word := BitVec 16

end Sys2Proof
end

