-- ==== Sys2Proof/Config.lean ====
section
/-! DEFINITION. The parameters of the block as one record (R4 P1 to P5 and P9, R19, D20). The values this
hardware takes are `Sys2Proof.Machine.config` in Sys2Proof/Machine/Params.lean. -/

namespace Sys2Proof

/-- The hardwired constants of R4 and R19, as the record D20 asks for. -/
structure Config where
  sof1 : Byte
  sof2 : Byte
  crcInit : Word
  crcPoly : Word
  maxPayload : Word
  tAlive : Byte
  tCommand : Byte
  tResponse : Byte
  tTelemetry : Byte
  tEvent : Byte
  deriving DecidableEq, Repr

/-- The constraint D20 puts on a changed configuration. `MAX_PAYLOAD <= 65535` holds by its width. -/
abbrev Config.Legal (c : Config) : Prop :=
  c.sof1 ≠ c.sof2 ∧ c.crcPoly.getLsbD 15 = true

/-- P6: header bytes on the wire. -/
abbrev hdrLen : Nat := 8

/-- P7: start-of-frame bytes. -/
abbrev sofLen : Nat := 2

/-- P8: trailing checksum bytes. -/
abbrev crcLen : Nat := 2

/-- P10: the bytes of a frame besides its payload, so the length of the shortest frame. -/
abbrev minFrame : Nat := sofLen + hdrLen + crcLen

/-- P11: the length of the longest frame. -/
def Config.maxFrame (c : Config) : Nat := sofLen + hdrLen + c.maxPayload.toNat + crcLen

end Sys2Proof
end

