-- ==== Sys2Proof/Syntax.lean ====
section
/-! DEFINITION. The values the operations exchange (R20, R12, R50) and the instructions: one constructor for
each row of spec/opcode_table.json, seven operations (R5) and five frames (R57 to R61). -/

namespace Sys2Proof

/-- A FrameHeader (R20). `type` is the raw 8-bit wire value (R15, D6). -/
structure FrameHeader where
  version : Byte
  type : Byte
  messageId : Word
  sequence : Word
  payloadLength : Word
  deriving DecidableEq, Repr

/-- A Frame: header and payload, by value (R20). -/
structure Frame where
  header : FrameHeader
  payload : List Byte
  deriving DecidableEq, Repr

/-- Eight header bytes in wire order: the header buffer `hbuf[0..7]` (R12) and the `h[0..7]` of R51. -/
structure HeaderBytes where
  b0 : Byte
  b1 : Byte
  b2 : Byte
  b3 : Byte
  b4 : Byte
  b5 : Byte
  b6 : Byte
  b7 : Byte
  deriving DecidableEq, Repr

/-- The five named frame types (R56 to R61). -/
inductive FrameType where
  | alive
  | command
  | response
  | telemetry
  | event
  deriving DecidableEq, Repr

/-- What a wire frame of a named type carries besides its SOF pair and its type byte (R50): every field as
received, the CRC among them, right or wrong. -/
structure FrameBody where
  version : Byte
  messageId : Word
  sequence : Word
  payloadLength : Word
  payload : List Byte
  crc : Word
  deriving DecidableEq, Repr

/-- The instructions: the `OP` rows of the table (R67), then its `FRAME` rows (R57 to R61, R71). -/
inductive Instr where
  /-- CRC.INIT (R82). -/
  | crcInit
  /-- CRC.BYTE d (R83). -/
  | crcByte (d : Byte)
  /-- CRC.COMPUTE bs (R84). -/
  | crcCompute (bs : List Byte)
  /-- DEC.RESET (R90). -/
  | decReset
  /-- DEC.BYTE d (R91). -/
  | decByte (d : Byte)
  /-- DEC.FEED bs (R100). -/
  | decFeed (bs : List Byte)
  /-- ENC.ENCODE f (R120). -/
  | encEncode (f : Frame)
  /-- A wire frame of type Alive reaching the decoder (R57). -/
  | frameAlive (b : FrameBody)
  /-- A wire frame of type Command reaching the decoder (R58). -/
  | frameCommand (b : FrameBody)
  /-- A wire frame of type Response reaching the decoder (R59). -/
  | frameResponse (b : FrameBody)
  /-- A wire frame of type Telemetry reaching the decoder (R60). -/
  | frameTelemetry (b : FrameBody)
  /-- A wire frame of type Event reaching the decoder (R61). -/
  | frameEvent (b : FrameBody)
  deriving DecidableEq, Repr

/-- The frame instruction of a type. -/
def Instr.frame : FrameType → FrameBody → Instr
  | .alive, b => .frameAlive b
  | .command, b => .frameCommand b
  | .response, b => .frameResponse b
  | .telemetry, b => .frameTelemetry b
  | .event, b => .frameEvent b

/-- An instruction's mnemonic in spec/opcode_table.json. -/
def Instr.mnemonic : Instr → String
  | .crcInit => "CRC.INIT"
  | .crcByte _ => "CRC.BYTE"
  | .crcCompute _ => "CRC.COMPUTE"
  | .decReset => "DEC.RESET"
  | .decByte _ => "DEC.BYTE"
  | .decFeed _ => "DEC.FEED"
  | .encEncode _ => "ENC.ENCODE"
  | .frameAlive _ => "FRAME.ALIVE"
  | .frameCommand _ => "FRAME.COMMAND"
  | .frameResponse _ => "FRAME.RESPONSE"
  | .frameTelemetry _ => "FRAME.TELEMETRY"
  | .frameEvent _ => "FRAME.EVENT"

end Sys2Proof
end

