-- ==== Sys2Proof/Machine/Params.lean ====
section
/-! DEFINITION. The values the parameters of R4 take on this hardware (log entry 13: the literals are
unaudited, U11), and the wire code of each named frame type (R4 P9, R57 to R61). -/

namespace Sys2Proof.Machine

/-- The parameter values of R4. -/
abbrev config : Config where
  sof1 := 0xA5#8
  sof2 := 0x5A#8
  crcInit := 0xFFFF#16
  crcPoly := 0xA001#16
  maxPayload := 4096#16
  tAlive := 1#8
  tCommand := 2#8
  tResponse := 3#8
  tTelemetry := 4#8
  tEvent := 5#8

/-- The wire code of a named frame type (R4 P9). -/
def typeCode : FrameType → Byte
  | .alive => config.tAlive
  | .command => config.tCommand
  | .response => config.tResponse
  | .telemetry => config.tTelemetry
  | .event => config.tEvent

end Sys2Proof.Machine
end

