-- ==== Sys2Proof/Machine/Operands.lean ====
section
/-! DEFINITION. Every operand form: the assembly of 16-bit values from bytes (R7, R33, R45), the header in
both directions (R51), the header as a command operand (R69), and the wire bytes of a received frame (R50). -/

namespace Sys2Proof

namespace Machine

/-- `lo8(v) = v[7:0]` (R7). -/
def lo8 (v : Word) : Byte := v.extractLsb' 0 8

/-- `hi8(v) = v[15:8]` (R7). -/
def hi8 (v : Word) : Byte := v.extractLsb' 8 8

/-- `u16le(lo, hi) = {hi, lo}` (R7): the first byte on the wire is the low one (R33). -/
def u16le (lo hi : Byte) : Word := hi ++ lo

end Machine

open Machine

/-- The eight bytes in wire order. -/
def HeaderBytes.toList (h : HeaderBytes) : List Byte :=
  [h.b0, h.b1, h.b2, h.b3, h.b4, h.b5, h.b6, h.b7]

/-- Header assembly from eight wire bytes (R51). -/
def HeaderBytes.parse (h : HeaderBytes) : FrameHeader where
  version := h.b0
  type := h.b1
  messageId := u16le h.b2 h.b3
  sequence := u16le h.b4 h.b5
  payloadLength := u16le h.b6 h.b7

/-- The eight wire bytes of a header: R51 in the other direction, the `H` of R120. -/
def FrameHeader.bytes (h : FrameHeader) : HeaderBytes where
  b0 := h.version
  b1 := h.type
  b2 := lo8 h.messageId
  b3 := hi8 h.messageId
  b4 := lo8 h.sequence
  b5 := hi8 h.sequence
  b6 := lo8 h.payloadLength
  b7 := hi8 h.payloadLength

/-- The header as operand bytes of a script line: fields in order, each 16-bit field most significant byte
first (R69; log entry 6). -/
def FrameHeader.operand (h : FrameHeader) : List Byte :=
  [h.version, h.type, hi8 h.messageId, lo8 h.messageId, hi8 h.sequence, lo8 h.sequence,
    hi8 h.payloadLength, lo8 h.payloadLength]

/-- A frame is valid when its length field is its payload's length and at most MAX_PAYLOAD (R21). -/
abbrev Frame.Valid (f : Frame) : Prop :=
  f.payload.length = f.header.payloadLength.toNat ∧ f.header.payloadLength ≤ config.maxPayload

/-- The header a frame of type code `t` carries (R50, R51). -/
def FrameBody.header (b : FrameBody) (t : FrameType) : FrameHeader where
  version := b.version
  type := typeCode t
  messageId := b.messageId
  sequence := b.sequence
  payloadLength := b.payloadLength

/-- The wire bytes of a received frame of a named type (R50), its CRC field as received. -/
def FrameBody.wire (b : FrameBody) (t : FrameType) : List Byte :=
  [config.sof1, config.sof2] ++ (b.header t).bytes.toList ++ b.payload ++ [lo8 b.crc, hi8 b.crc]

end Sys2Proof
end

