-- ==== Sys2Proof/WellFormed.lean ====
section
/-! DEFINITION. When an instruction is well formed: a frame instruction is one whole wire frame, so its
payload has the length its header announces (R53) and that length is legal (R64). Every other operand is any
value of its type; ENC.ENCODE of an invalid frame is well formed and refused when it runs (R121). -/

namespace Sys2Proof

/-- A frame instruction's checks: legal length (R64), payload of that length (R53). The CRC field may be
wrong: such a frame is received and found out (R97). -/
abbrev FrameBody.WellFormed (b : FrameBody) : Prop :=
  b.payloadLength ≤ Machine.config.maxPayload ∧ b.payload.length = b.payloadLength.toNat

/-- Well-formedness of an instruction, as a check that evaluates. -/
def Instr.wellFormed : Instr → Bool
  | .crcInit => true
  | .crcByte _ => true
  | .crcCompute _ => true
  | .decReset => true
  | .decByte _ => true
  | .decFeed _ => true
  | .encEncode _ => true
  | .frameAlive b => decide b.WellFormed
  | .frameCommand b => decide b.WellFormed
  | .frameResponse b => decide b.WellFormed
  | .frameTelemetry b => decide b.WellFormed
  | .frameEvent b => decide b.WellFormed

/-- `i.WellFormed`: the check holds. -/
abbrev Instr.WellFormed (i : Instr) : Prop := i.wellFormed = true

end Sys2Proof
end

