-- ==== Sys2Proof/Decode.lean ====
section
/-! DEFINITION. The two ways the host addresses the block, as raw data: a command line (`cmd[3:0]` and operand
bytes, R67, R69) and a chunk of the receive stream (R31). The decoder reads the rows of
spec/opcode_table.json (R71) and is total; the encoder is its inverse on well-formed instructions. -/

namespace Sys2Proof

/-- One transaction of the host, undecoded. -/
inductive Line where
  /-- A script line: the 4-bit command code, then the operand bytes in the order written (R67, R69). -/
  | command (cmd : BitVec 4) (operand : List Byte)
  /-- A chunk of the receive stream, one wire frame or any other bytes (R31). -/
  | receive (bytes : List Byte)
  deriving DecidableEq, Repr

/-- Why a line is no instruction. -/
inductive DecodeError where
  /-- A reserved command code (R68). -/
  | reservedCommand (cmd : BitVec 4)
  /-- An operand that is not the operation's (R69; log entry 7). -/
  | badOperand (mnemonic : String)
  deriving DecidableEq, Repr

/-- The operations a command code can select (R67). -/
inductive Operation where
  | crcInit
  | crcByte
  | crcCompute
  | decReset
  | decByte
  | decFeed
  | encEncode
  deriving DecidableEq, Repr

/-- One `OP` row of the table: a code `c` selects it when `c & mask = pattern` (R71). -/
structure OpRow where
  mask : BitVec 4
  pattern : BitVec 4
  operation : Operation
  deriving DecidableEq, Repr

/-- One `FRAME` row: mask and pattern of the first ten wire bytes, wire byte 0 first (R71). -/
structure FrameRow where
  type : FrameType
  bytes : List (Byte × Byte)
  deriving DecidableEq, Repr

/-- The `OP` rows of the table (R67). -/
def opRows : List OpRow :=
  [⟨0xF, 0x0, .crcInit⟩, ⟨0xF, 0x1, .crcByte⟩, ⟨0xF, 0x2, .crcCompute⟩, ⟨0xF, 0x4, .decReset⟩,
    ⟨0xF, 0x5, .decByte⟩, ⟨0xF, 0x6, .decFeed⟩, ⟨0xF, 0x8, .encEncode⟩]

/-- The `FRAME` row of a type: `A5 5A vv tt ii ii ss ss ll ll` under `FF FF 00 FF 00 00 00 00 00 00` (R71). -/
def frameRow (t : FrameType) : FrameRow :=
  ⟨t, [(0xFF, Machine.config.sof1), (0xFF, Machine.config.sof2), (0, 0), (0xFF, Machine.typeCode t), (0, 0),
    (0, 0), (0, 0), (0, 0), (0, 0), (0, 0)]⟩

/-- The `FRAME` rows of the table. -/
def frameRows : List FrameRow :=
  [frameRow .alive, frameRow .command, frameRow .response, frameRow .telemetry, frameRow .event]

/-- A command code selects an `OP` row (R71). -/
def OpRow.selectedBy (r : OpRow) (cmd : BitVec 4) : Bool := cmd &&& r.mask == r.pattern

/-- Byte by byte, `B[k] & mask[k] = match[k]` (R71). -/
def matchBytes : List (Byte × Byte) → List Byte → Bool
  | [], _ => true
  | _ :: _, [] => false
  | p :: ps, b :: bs => b &&& p.1 == p.2 && matchBytes ps bs

/-- A wire frame selects a `FRAME` row by its first ten bytes (R71). -/
def FrameRow.selectedBy (r : FrameRow) (bytes : List Byte) : Bool := matchBytes r.bytes bytes

/-- The operation a command code selects, none for a reserved code (R67, R68). -/
def operationOf (cmd : BitVec 4) : Option Operation :=
  (opRows.find? (OpRow.selectedBy · cmd)).map OpRow.operation

/-- The named frame type whose row the bytes select, if any. -/
def frameTypeOf (bytes : List Byte) : Option FrameType :=
  (frameRows.find? (FrameRow.selectedBy · bytes)).map FrameRow.type

/-- The fields of a chunk that is exactly one whole wire frame of a legal length (R50, R51, R53, R64). -/
def frameBodyOf : List Byte → Option FrameBody
  | _ :: _ :: v :: _ :: i0 :: i1 :: q0 :: q1 :: l0 :: l1 :: rest =>
    let len := Machine.u16le l0 l1
    if len ≤ Machine.config.maxPayload ∧ rest.length = len.toNat + crcLen then
      match rest.drop len.toNat with
      | [c0, c1] =>
        some ⟨v, Machine.u16le i0 i1, Machine.u16le q0 q1, len, rest.take len.toNat, Machine.u16le c0 c1⟩
      | _ => none
    else none
  | _ => none

/-- The frame an operand of ENC.ENCODE names: eight header bytes, then the payload (R67, R69). -/
def frameOperandOf : List Byte → Option Frame
  | v :: t :: i1 :: i0 :: q1 :: q0 :: l1 :: l0 :: payload =>
    some ⟨⟨v, t, Machine.u16le i0 i1, Machine.u16le q0 q1, Machine.u16le l0 l1⟩, payload⟩
  | _ => none

/-- The instruction of an operation and its operand bytes (R67 operand column, R69). -/
def decodeOperand : Operation → List Byte → Except DecodeError Instr
  | .crcInit, [] => .ok .crcInit
  | .crcInit, _ :: _ => .error (.badOperand "CRC.INIT")
  | .crcByte, [d] => .ok (.crcByte d)
  | .crcByte, _ => .error (.badOperand "CRC.BYTE")
  | .crcCompute, bs => .ok (.crcCompute bs)
  | .decReset, [] => .ok .decReset
  | .decReset, _ :: _ => .error (.badOperand "DEC.RESET")
  | .decByte, [d] => .ok (.decByte d)
  | .decByte, _ => .error (.badOperand "DEC.BYTE")
  | .decFeed, bs => .ok (.decFeed bs)
  | .encEncode, bs =>
    match frameOperandOf bs with
    | some f => .ok (.encEncode f)
    | none => .error (.badOperand "ENC.ENCODE")

/-- The instruction of a received chunk: the frame instruction when the chunk is one whole frame of a named
type, else the chunk as it is fed (R31, R62; log entry 9). -/
def decodeReceive (bytes : List Byte) : Instr :=
  match frameTypeOf bytes, frameBodyOf bytes with
  | some t, some b => .frame t b
  | _, _ => .decFeed bytes

/-- The decoder, total on every line. -/
def decode : Line → Except DecodeError Instr
  | .command cmd operand =>
    match operationOf cmd with
    | none => .error (.reservedCommand cmd)
    | some op => decodeOperand op operand
  | .receive bytes => .ok (decodeReceive bytes)

/-- The encoder: the line of an instruction (R50, R67, R69). -/
def encode : Instr → Line
  | .crcInit => .command 0x0 []
  | .crcByte d => .command 0x1 [d]
  | .crcCompute bs => .command 0x2 bs
  | .decReset => .command 0x4 []
  | .decByte d => .command 0x5 [d]
  | .decFeed bs => .command 0x6 bs
  | .encEncode f => .command 0x8 (f.header.operand ++ f.payload)
  | .frameAlive b => .receive (b.wire .alive)
  | .frameCommand b => .receive (b.wire .command)
  | .frameResponse b => .receive (b.wire .response)
  | .frameTelemetry b => .receive (b.wire .telemetry)
  | .frameEvent b => .receive (b.wire .event)

/-- The mnemonic of the table row a line selects (R71): an `OP` row by its code, a `FRAME` row by its first
ten bytes. -/
def rowMnemonic : Line → Option String
  | .command cmd _ =>
    match operationOf cmd with
    | none => none
    | some .crcInit => some "CRC.INIT"
    | some .crcByte => some "CRC.BYTE"
    | some .crcCompute => some "CRC.COMPUTE"
    | some .decReset => some "DEC.RESET"
    | some .decByte => some "DEC.BYTE"
    | some .decFeed => some "DEC.FEED"
    | some .encEncode => some "ENC.ENCODE"
  | .receive bytes =>
    match frameTypeOf bytes with
    | none => none
    | some .alive => some "FRAME.ALIVE"
    | some .command => some "FRAME.COMMAND"
    | some .response => some "FRAME.RESPONSE"
    | some .telemetry => some "FRAME.TELEMETRY"
    | some .event => some "FRAME.EVENT"

/-- The low `n` bytes of a number, least significant first. -/
def bytesOfNat : Nat → Nat → List Byte
  | 0, _ => []
  | n + 1, w => BitVec.ofNat 8 w :: bytesOfNat n (w / 256)

/-- The bytes `xs` begin with the SOF pair. -/
def startsFrame (xs : List Byte) : Bool :=
  matchBytes [(0xFF, Machine.config.sof1), (0xFF, Machine.config.sof2)] xs

/-- A frame's first ten bytes completed with a payload of zeros of the announced length and a zero CRC; bytes
that announce an illegal length stand as they are. -/
def zeroCompleted (xs : List Byte) : List Byte :=
  let len := Machine.u16le (xs.getD 8 0) (xs.getD 9 0)
  if len ≤ Machine.config.maxPayload then xs ++ List.replicate (minFrame + len.toNat - xs.length) 0 else xs

/-- The shortest operand of zeros that completes a command (operand column of R67). -/
def zeroOperand (cmd : BitVec 4) : List Byte :=
  match operationOf cmd with
  | some .crcByte => [0]
  | some .decByte => [0]
  | some .encEncode => List.replicate hdrLen 0
  | _ => []

/-- The line a table word stands for (log entry 10). Up to eight bits are a command code in the low four;
more are the first wire bytes of a frame, wire byte 0 in the low byte, or in the high byte where only that
reading starts with the SOF pair (R71 writes the pattern wire byte 0 first). -/
def tableLine (nbits w : Nat) : Line :=
  if nbits ≤ 8 then .command (BitVec.ofNat 4 w) (zeroOperand (BitVec.ofNat 4 w))
  else
    let xs := bytesOfNat (nbits / 8) w
    .receive (zeroCompleted (if startsFrame xs || !startsFrame xs.reverse then xs else xs.reverse))

/-- What the decoder reads from a table word. -/
def decodeTableWord (nbits w : Nat) : Option Instr :=
  match decode (tableLine nbits w) with
  | .ok i => some i
  | .error _ => none

end Sys2Proof
end

