-- ==== Sys2Proof/Machine/State.lean ====
section
/-! DEFINITION. All state the spec gives the block (R10 to R17), the model's own two lists (what the host has
offered, what it was answered), the reasons a step can stop, and the state after a hardware reset (R25, R150). -/

namespace Sys2Proof.Machine

/-- The parse-state register `ps` (R11). -/
inductive ParseState where
  | seekSof1
  | seekSof2
  | readHeader
  | readPayload
  | readCrc
  deriving DecidableEq, Repr

/-- The CRC buffer `cbuf[0..1]` (R14). -/
structure CrcBytes where
  b0 : Byte
  b1 : Byte
  deriving DecidableEq, Repr

/-- The payload buffer: the cells that differ from what an unlisted cell reads as, by rising index (R13, R30). -/
abbrev Memory := List Host.Cell

/-- The decoder state `DS` (R10 to R15). -/
structure DecState where
  /-- R11. -/
  ps : ParseState
  /-- R12. -/
  hbuf : HeaderBytes
  /-- R12: 4 bits, 0 to 8. -/
  hcnt : BitVec 4
  /-- R13. -/
  pbuf : Memory
  /-- R13: 13 bits, 0 to 4096. -/
  pcnt : BitVec 13
  /-- R14. -/
  cbuf : CrcBytes
  /-- R14: 2 bits, 0 to 2. -/
  ccnt : BitVec 2
  /-- R15: the header parsed so far. -/
  hdr : FrameHeader
  deriving DecidableEq, Repr

/-- The two protocol errors (R130). Code 3 is never produced and has no constructor (U9). -/
inductive ErrReason where
  | frameTooLarge
  | crcMismatch
  deriving DecidableEq, Repr

/-- A non-`None` outcome of a DEC.BYTE step (R8, R9). The outcome `None` is `Option.none`. -/
inductive Event where
  /-- `Frame(h, p)` by value (R97, R155). -/
  | frame (f : Frame)
  /-- `Err(reason, info)` with `err_info` (R133). -/
  | err (reason : ErrReason) (info : Word)
  deriving DecidableEq, Repr

/-- What one operation returns to the host (the outputs column of R27). -/
inductive Response where
  /-- No output: CRC.INIT and hardware reset (R27, R82). -/
  | nothing
  /-- `crc_out` (R83, R84). -/
  | crcOut (v : Word)
  /-- The outcome of one decoder step (R91); `none` is `None`, also the outcome of DEC.RESET (R90). -/
  | stepOutcome (o : Option Event)
  /-- The events of a chunk in order (R100). -/
  | events (es : List Event)
  /-- `tx_bytes` (R120). -/
  | txBytes (bs : List Byte)
  deriving DecidableEq, Repr

/-- What the host can do to the block (R27). -/
inductive Input where
  /-- Hardware reset (R27, R150). -/
  | rst
  /-- An operation. -/
  | line (l : Line)
  deriving DecidableEq, Repr

/-- The machine. -/
structure State where
  /-- `DS` (R10). -/
  dec : DecState
  /-- `crc_acc` (R16). -/
  crcAcc : Word
  /-- The model's own: what the host has offered and the block has not yet served, oldest first (R27, R69;
  log entry 4). -/
  inputs : List Input
  /-- The model's own: the outcomes returned so far, oldest first (R160; log entry 5). -/
  outcomes : List Response
  deriving DecidableEq, Repr

/-- Reasons the machine stops with a fault. All are raised by an access outside a buffer of R12 to R14, and
only in states that R23 rules out; each is safe (log entry 11). -/
inductive Fault where
  /-- `hbuf[i]` with i above 7: raised by a header byte when `hcnt` is above 7. Safe: unreachable. -/
  | headerIndex
  /-- `pbuf[i]` with i above 4095: raised by a payload byte when `pcnt` is above 4095, and by the last CRC
  byte when `hdr.payloadLength` is above 4096. Safe: unreachable. -/
  | payloadIndex
  /-- `cbuf[i]` with i above 1: raised by a CRC byte when `ccnt` is above 1. Safe: unreachable. -/
  | crcIndex
  deriving DecidableEq, Repr

/-- Reasons a line has no next state; the run is marked refused there (R160). -/
inductive Refusal where
  /-- An instruction the model gives no meaning yet: raised by no arm of `exec` now. Safe. -/
  | notModelled (mnemonic : String)
  /-- A reserved command code: raised by `step` (R68). Safe: the spec's own refusal. -/
  | reservedCommand (cmd : BitVec 4)
  /-- A command with the wrong number of operand bytes: raised by `step` (R69; log entry 7). Safe. -/
  | badOperand (mnemonic : String)
  /-- `Refused`: ENC.ENCODE of a frame that is not valid (R121, U3, U4). Safe: the spec's own refusal. -/
  | invalidFrame
  deriving DecidableEq, Repr

/-- The decoder after a hardware reset (R25). `hbuf`, `cbuf` and `hdr` are unspecified there: the zeros are
the model's choice (log entry 1), and so is an empty `pbuf` (log entry 2). -/
def DecState.reset : DecState where
  ps := .seekSof1
  hbuf := ⟨0, 0, 0, 0, 0, 0, 0, 0⟩
  hcnt := 0
  pbuf := []
  pcnt := 0
  cbuf := ⟨0, 0⟩
  ccnt := 0
  hdr := ⟨0, 0, 0, 0, 0⟩

/-- The machine right after a hardware reset (R25, R150): `crc_acc = CRC_INIT`, nothing offered, nothing
returned. -/
def State.reset : State where
  dec := DecState.reset
  crcAcc := config.crcInit
  inputs := []
  outcomes := []

end Sys2Proof.Machine
end

