-- ==== Sys2Proof/Machine/Ops.lean ====
section
/-! DEFINITION. The shared operations: the payload buffer (R8, R30), the two register arrays (R12, R14), the
CRC function (R81, R83), `dec_clear` (R92), raising an error (R134), hardware reset (R150), the wire bytes
of a valid frame (R120), and returning an outcome to the host. -/

namespace Sys2Proof.Machine

/-- What an unlisted payload cell reads as (R25 leaves it unspecified; log entry 2). -/
def Memory.unlisted : Byte := 0

/-- The number of cells of the payload buffer (R13). -/
def payloadCells : Nat := config.maxPayload.toNat

/-- The canonical form from index `lo` on: rising indices inside the buffer, no cell that reads as unlisted. -/
def Memory.wfFrom : Nat → Memory → Bool
  | _, [] => true
  | lo, c :: m =>
    decide (lo ≤ c.1) && decide (c.1 < payloadCells) && decide (c.2 ≠ Memory.unlisted) && Memory.wfFrom (c.1 + 1) m

/-- The canonical form of the payload buffer. -/
def Memory.wf (m : Memory) : Bool := Memory.wfFrom 0 m

/-- One cell of the payload buffer. -/
def Memory.read : Memory → Nat → Byte
  | [], _ => Memory.unlisted
  | c :: m, a => if c.1 = a then c.2 else Memory.read m a

/-- Store one cell, keeping the canonical form. -/
def Memory.write : Memory → Nat → Byte → Memory
  | [], a, b => if b = Memory.unlisted then [] else [(a, b)]
  | c :: m, a, b =>
    if a < c.1 then if b = Memory.unlisted then c :: m else (a, b) :: c :: m
    else if a = c.1 then if b = Memory.unlisted then m else (a, b) :: m
    else c :: Memory.write m a b

/-- `MemWrite(addr, 1, v)` of R8; no cell exists above MAX_PAYLOAD - 1 (R30). -/
def memWrite (m : Memory) (a : Nat) (b : Byte) : Option Memory :=
  if a < payloadCells then some (m.write a b) else none

/-- `MemRead(0, n)` of R8: `pbuf[0 .. n-1]`, a copy. -/
def memRead (m : Memory) (n : Nat) : Option (List Byte) :=
  if n ≤ payloadCells then some ((List.range n).map m.read) else none

/-- `hbuf[i] <- d` (R8, R12). -/
def setHeaderByte (h : HeaderBytes) (i : Nat) (d : Byte) : Option HeaderBytes :=
  match i with
  | 0 => some { h with b0 := d }
  | 1 => some { h with b1 := d }
  | 2 => some { h with b2 := d }
  | 3 => some { h with b3 := d }
  | 4 => some { h with b4 := d }
  | 5 => some { h with b5 := d }
  | 6 => some { h with b6 := d }
  | 7 => some { h with b7 := d }
  | _ => none

/-- `cbuf[i] <- d` (R8, R14). -/
def setCrcByte (c : CrcBytes) (i : Nat) (d : Byte) : Option CrcBytes :=
  match i with
  | 0 => some { c with b0 := d }
  | 1 => some { c with b1 := d }
  | _ => none

/-- One shift of R83: the bit shifted out decides the feedback. -/
def crcShift (c : Word) : Word :=
  if c.getLsbD 0 then (c >>> 1) ^^^ config.crcPoly else c >>> 1

/-- `n` shifts. -/
def crcShifts : Nat → Word → Word
  | 0, c => c
  | n + 1, c => crcShifts n (crcShift c)

/-- `crc_byte(c, d)` of R83 (the byte enters by XOR into the low half: G1, log entry 12). -/
def crcByte (c : Word) (d : Byte) : Word := crcShifts 8 (c ^^^ d.setWidth 16)

/-- `crc16` continued from a register value. -/
def crcFrom (c : Word) (bs : List Byte) : Word := bs.foldl crcByte c

/-- The pure function `crc16` of R81; no output step (G2, log entry 12). -/
def crc16 (bs : List Byte) : Word := crcFrom config.crcInit bs

/-- `dec_clear()` (R92). The buffers and `hdr` keep their old contents, which R25 allows (log entry 3). -/
def decClear (ds : DecState) : DecState :=
  { ds with ps := .seekSof1, hcnt := 0, pcnt := 0, ccnt := 0 }

/-- Taking an error (R134): the byte is stored and the check evaluated before; the state is cleared and the
event returned. Nothing is saved and control goes nowhere; there is no return operation (R137). -/
def raiseError (ds : DecState) (r : ErrReason) (info : Word) : DecState × Option Event :=
  (decClear ds, some (.err r info))

/-- Handing over a frame (R97): the event by value, and the cleared state. -/
def emitFrame (ds : DecState) (f : Frame) : DecState × Option Event :=
  (decClear ds, some (.frame f))

/-- The wire bytes of a frame (R50, R120). -/
def encodeFrame (f : Frame) : List Byte :=
  let covered := f.header.bytes.toList ++ f.payload
  let c := crc16 covered
  [config.sof1, config.sof2] ++ covered ++ [lo8 c, hi8 c]

/-- Return an outcome to the host (R160). -/
def State.respond (s : State) (r : Response) : State := { s with outcomes := s.outcomes ++ [r] }

/-- Replace `DS`. -/
def State.setDec (s : State) (ds : DecState) : State := { s with dec := ds }

/-- Replace `crc_acc`. -/
def State.setCrcAcc (s : State) (c : Word) : State := { s with crcAcc := c }

/-- Replace the host's pending inputs. -/
def State.setInputs (s : State) (is : List Input) : State := { s with inputs := is }

/-- Hardware reset (R27, R150): the decoder is cleared and `crc_acc` is CRC_INIT; buffers are unspecified and
kept (log entry 3). -/
def hardwareReset (s : State) : State :=
  ((s.setDec (decClear s.dec)).setCrcAcc config.crcInit).respond .nothing

/-- End an operation of the decoder: its new state and what it returns, or the fault that stopped it. -/
def State.finishDec {α : Type} (s : State) (r : Except Fault (DecState × α)) (answer : α → Response) :
    Host.Outcome State Fault Refusal :=
  match r with
  | .ok (ds, a) => .next ((s.setDec ds).respond (answer a))
  | .error f => .fault f

end Sys2Proof.Machine
end

