-- ==== Sys2Proof/Machine/Crc.lean ====
section
/-! DEFINITION. The CRC unit's operations (40_crc.md R82 to R84). -/

namespace Sys2Proof.Machine

/-- CRC.INIT (R82). -/
def execCrcInit (s : State) : Host.Outcome State Fault Refusal :=
  .next ((s.setCrcAcc config.crcInit).respond .nothing)

/-- CRC.BYTE d (R83). -/
def execCrcByte (d : Byte) (s : State) : Host.Outcome State Fault Refusal :=
  let c := crcByte s.crcAcc d
  .next ((s.setCrcAcc c).respond (.crcOut c))

/-- CRC.COMPUTE bs (R84, R70). -/
def execCrcCompute (bs : List Byte) (s : State) : Host.Outcome State Fault Refusal :=
  let c := crcFrom config.crcInit bs
  .next ((s.setCrcAcc c).respond (.crcOut c))

end Sys2Proof.Machine
end

