-- ==== Sys2Proof/Machine/Decoder.lean ====
section
/-! DEFINITION. The frame decoder (41_decoder.md R90 to R100): one byte in each parse state, a chunk, and the
three operations. The step reads and writes `DS` alone (R41). -/

namespace Sys2Proof.Machine

/-- R93: state SeekSof1. -/
def seekSof1Byte (ds : DecState) (d : Byte) : Except Fault (DecState × Option Event) :=
  if d = config.sof1 then .ok ({ ds with ps := .seekSof2 }, none)
  else .ok ({ ds with ps := .seekSof1 }, none)

/-- R94: state SeekSof2. -/
def seekSof2Byte (ds : DecState) (d : Byte) : Except Fault (DecState × Option Event) :=
  if d = config.sof2 then .ok ({ ds with ps := .readHeader, hcnt := 0 }, none)
  else if d = config.sof1 then .ok ({ ds with ps := .seekSof2 }, none)
  else .ok ({ ds with ps := .seekSof1 }, none)

/-- The end of R95: the eighth header byte is stored, the header is parsed and its length checked (R131). -/
def headerComplete (ds : DecState) : DecState × Option Event :=
  let h := ds.hbuf.parse
  let ds := { ds with hdr := h }
  if config.maxPayload < h.payloadLength then raiseError ds .frameTooLarge h.payloadLength
  else if h.payloadLength = 0 then ({ ds with ps := .readCrc, ccnt := 0, pcnt := 0 }, none)
  else ({ ds with ps := .readPayload, pcnt := 0 }, none)

/-- R95: state ReadHeader. -/
def readHeaderByte (ds : DecState) (d : Byte) : Except Fault (DecState × Option Event) :=
  match setHeaderByte ds.hbuf ds.hcnt.toNat d with
  | none => .error .headerIndex
  | some hb =>
    let ds := { ds with hbuf := hb, hcnt := ds.hcnt + 1 }
    if ds.hcnt.toNat < hdrLen then .ok (ds, none) else .ok (headerComplete ds)

/-- R96: state ReadPayload. -/
def readPayloadByte (ds : DecState) (d : Byte) : Except Fault (DecState × Option Event) :=
  match memWrite ds.pbuf ds.pcnt.toNat d with
  | none => .error .payloadIndex
  | some m =>
    let ds := { ds with pbuf := m, pcnt := ds.pcnt + 1 }
    if ds.pcnt.toNat = ds.hdr.payloadLength.toNat then .ok ({ ds with ps := .readCrc, ccnt := 0 }, none)
    else .ok (ds, none)

/-- The end of R97: both CRC bytes are stored, the CRC is recomputed and compared (R132). -/
def crcComplete (ds : DecState) : Except Fault (DecState × Option Event) :=
  match memRead ds.pbuf ds.hdr.payloadLength.toNat with
  | none => .error .payloadIndex
  | some p =>
    let computed := crc16 (ds.hbuf.toList ++ p)
    if computed = u16le ds.cbuf.b0 ds.cbuf.b1 then .ok (emitFrame ds ⟨ds.hdr, p⟩)
    else .ok (raiseError ds .crcMismatch computed)

/-- R97: state ReadCrc. -/
def readCrcByte (ds : DecState) (d : Byte) : Except Fault (DecState × Option Event) :=
  match setCrcByte ds.cbuf ds.ccnt.toNat d with
  | none => .error .crcIndex
  | some cb =>
    let ds := { ds with cbuf := cb, ccnt := ds.ccnt + 1 }
    if ds.ccnt.toNat < crcLen then .ok (ds, none) else crcComplete ds

/-- One received byte: the rule `ps` selects (R91). -/
def decByte (ds : DecState) (d : Byte) : Except Fault (DecState × Option Event) :=
  match ds.ps with
  | .seekSof1 => seekSof1Byte ds d
  | .seekSof2 => seekSof2Byte ds d
  | .readHeader => readHeaderByte ds d
  | .readPayload => readPayloadByte ds d
  | .readCrc => readCrcByte ds d

/-- A chunk: every byte in order, the non-`None` outcomes collected (R100). -/
def feedBytes : DecState → List Byte → Except Fault (DecState × List Event)
  | ds, [] => .ok (ds, [])
  | ds, d :: bs =>
    match decByte ds d with
    | .error f => .error f
    | .ok (ds1, o) =>
      match feedBytes ds1 bs with
      | .error f => .error f
      | .ok (ds2, es) => .ok (ds2, o.toList ++ es)

/-- DEC.RESET (R90). -/
def execDecReset (s : State) : Host.Outcome State Fault Refusal :=
  .next ((s.setDec (decClear s.dec)).respond (.stepOutcome none))

/-- DEC.BYTE d (R91). -/
def execDecByte (d : Byte) (s : State) : Host.Outcome State Fault Refusal :=
  s.finishDec (decByte s.dec d) .stepOutcome

/-- DEC.FEED bs (R100). -/
def execDecFeed (bs : List Byte) (s : State) : Host.Outcome State Fault Refusal :=
  s.finishDec (feedBytes s.dec bs) .events

end Sys2Proof.Machine
end

