-- ==== Sys2Proof/Machine/Encoder.lean ====
section
/-! DEFINITION. The frame encoder (42_encoder.md R120, R121). -/

namespace Sys2Proof.Machine

/-- ENC.ENCODE f: the wire bytes of a valid frame (R120), `Refused` for any other operand (R121). -/
def execEncEncode (f : Frame) (s : State) : Host.Outcome State Fault Refusal :=
  if f.Valid then .next (s.respond (.txBytes (encodeFrame f))) else .refused .invalidFrame

end Sys2Proof.Machine
end

