-- ==== Sys2Proof/Machine/Frames.lean ====
section
/-! DEFINITION. The five frames of the table as what they are to this block: a wire frame that reaches the
decoder byte by byte (R50, R56 to R61, the pseudo-operation `DEC.FEED FRAME(..)` of R70; log entry 8). -/

namespace Sys2Proof.Machine

/-- Reception of a wire frame of a named type. No type is treated differently from another (R56). -/
def receiveFrame (t : FrameType) (b : FrameBody) (s : State) : Host.Outcome State Fault Refusal :=
  s.finishDec (feedBytes s.dec (b.wire t)) .events

/-- FRAME.ALIVE (R57). -/
def execFrameAlive (b : FrameBody) (s : State) : Host.Outcome State Fault Refusal := receiveFrame .alive b s

/-- FRAME.COMMAND (R58). -/
def execFrameCommand (b : FrameBody) (s : State) : Host.Outcome State Fault Refusal := receiveFrame .command b s

/-- FRAME.RESPONSE (R59). -/
def execFrameResponse (b : FrameBody) (s : State) : Host.Outcome State Fault Refusal := receiveFrame .response b s

/-- FRAME.TELEMETRY (R60). -/
def execFrameTelemetry (b : FrameBody) (s : State) : Host.Outcome State Fault Refusal := receiveFrame .telemetry b s

/-- FRAME.EVENT (R61). -/
def execFrameEvent (b : FrameBody) (s : State) : Host.Outcome State Fault Refusal := receiveFrame .event b s

end Sys2Proof.Machine
end

