-- ==== Sys2Proof/Machine/Dispatch.lean ====
section
/-! DEFINITION. One instruction: the arm of its constructor calls its meaning. -/

namespace Sys2Proof.Machine

def exec (i : Instr) (s : State) : Host.Outcome State Fault Refusal :=
  match i with
  | .crcInit => Sys2Proof.Machine.execCrcInit s
  | .crcByte d => Sys2Proof.Machine.execCrcByte d s
  | .crcCompute bs => Sys2Proof.Machine.execCrcCompute bs s
  | .decReset => Sys2Proof.Machine.execDecReset s
  | .decByte d => Sys2Proof.Machine.execDecByte d s
  | .decFeed bs => Sys2Proof.Machine.execDecFeed bs s
  | .encEncode f => Sys2Proof.Machine.execEncEncode f s
  | .frameAlive b => Sys2Proof.Machine.execFrameAlive b s
  | .frameCommand b => Sys2Proof.Machine.execFrameCommand b s
  | .frameResponse b => Sys2Proof.Machine.execFrameResponse b s
  | .frameTelemetry b => Sys2Proof.Machine.execFrameTelemetry b s
  | .frameEvent b => Sys2Proof.Machine.execFrameEvent b s

end Sys2Proof.Machine
end

