-- ==== Sys2Proof/Machine/Fetch.lean ====
section
/-! DEFINITION. What the next step serves: the block fetches no instruction (R43); it takes the host's oldest
pending input (R27, R41). -/

namespace Sys2Proof.Machine

/-- What the host's oldest pending input asks for. -/
inductive Fetched where
  /-- Nothing is pending (R144, R162). -/
  | idle
  /-- Hardware reset, and the state with it taken off the list. -/
  | rst (s : State)
  /-- A line that is no instruction. -/
  | bad (e : DecodeError)
  /-- An instruction, and the state with its line taken off the list. -/
  | instr (i : Instr) (s : State)
  deriving DecidableEq, Repr

/-- Take and decode the oldest pending input. -/
def fetch (s : State) : Fetched :=
  match s.inputs with
  | [] => .idle
  | .rst :: rest => .rst (s.setInputs rest)
  | .line l :: rest =>
    match decode l with
    | .ok i => .instr i (s.setInputs rest)
    | .error e => .bad e

/-- The refusal of a line that is no instruction (R68, R69). -/
def refusalOf : DecodeError → Refusal
  | .reservedCommand cmd => .reservedCommand cmd
  | .badOperand m => .badOperand m

/-- Offer an input ahead of all others. -/
def offerNext (s : State) (i : Input) : State := s.setInputs (i :: s.inputs)

end Sys2Proof.Machine
end

