-- ==== Sys2Proof/Machine/Step.lean ====
section
/-! DEFINITION. One step of the machine: serve the host's oldest pending input. With none pending the block
keeps its state (R144, R160, R162). -/

namespace Sys2Proof.Machine

/-- One step. -/
def step (s : State) : Host.Outcome State Fault Refusal :=
  match fetch s with
  | .idle => .next s
  | .rst s' => .next (hardwareReset s')
  | .bad e => .refused (refusalOf e)
  | .instr i s' => exec i s'

/-- `s` with the instruction of a table word offered by the host ahead of all else (log entry 4). -/
def State.withFetchWord (s : State) (nbits w : Nat) : State := offerNext s (.line (tableLine nbits w))

end Sys2Proof.Machine
end

