-- ==== Sys2Proof/Machine/Flags.lean ====
section
/-! DEFINITION. The status signals of the block (R18, R27). It holds no flag as state: each signal is a
function of the outcome of a step and valid for that step only. -/

namespace Sys2Proof.Machine

/-- The parse-state codes of R11 (D9). -/
def ParseState.code : ParseState → BitVec 3
  | .seekSof1 => 0
  | .seekSof2 => 1
  | .readHeader => 2
  | .readPayload => 3
  | .readCrc => 4

/-- The reason codes of R130 (D5). -/
def ErrReason.code : ErrReason → BitVec 2
  | .frameTooLarge => 1
  | .crcMismatch => 2

/-- `frm_valid` (R18). -/
def frmValid : Option Event → BitVec 1
  | some (.frame _) => 1
  | some (.err _ _) => 0
  | none => 0

/-- `err_valid` (R18). -/
def errValid : Option Event → BitVec 1
  | some (.err _ _) => 1
  | some (.frame _) => 0
  | none => 0

/-- `err_code`, 0 when there is no error (R130). -/
def errCode : Option Event → BitVec 2
  | some (.err r _) => r.code
  | some (.frame _) => 0
  | none => 0

/-- `err_info`, which accompanies an error only (R133). -/
def errInfo : Option Event → Option Word
  | some (.err _ info) => some info
  | some (.frame _) => none
  | none => none

/-- `frm_hdr` and `frm_payload`, which accompany a frame only (R27). -/
def frmOut : Option Event → Option Frame
  | some (.frame f) => some f
  | some (.err _ _) => none
  | none => none

/-- The decoder outcome at the port after the latest operation: `None` after a hardware reset and after
DEC.RESET (R25), that of the step after DEC.BYTE. -/
def State.decOutcome (s : State) : Option Event :=
  match s.outcomes.getLast? with
  | some (.stepOutcome o) => o
  | _ => none

end Sys2Proof.Machine
end

