-- ==== Sys2Proof/Safety.lean ====
section
/-! DEFINITION. The terms the statements use: the invariant of `DS` (R23), its abstract view (R24), the cells a
chunk stores to (R107), and the unit that executes an instruction (R10). -/

namespace Sys2Proof.Machine

/-- The row of the table of R23 for the state's `ps`, with R15: `hdr` is the parsed header once there is one. -/
def DecState.tableRow (ds : DecState) : Bool :=
  match ds.ps with
  | .seekSof1 => ds.hcnt == 0 && ds.pcnt == 0 && ds.ccnt == 0
  | .seekSof2 => ds.hcnt == 0 && ds.pcnt == 0 && ds.ccnt == 0
  | .readHeader => decide (ds.hcnt.toNat < 8) && ds.pcnt == 0 && ds.ccnt == 0
  | .readPayload =>
    ds.hcnt == 8 && decide (ds.pcnt.toNat < ds.hdr.payloadLength.toNat) && ds.ccnt == 0 &&
      decide (ds.hdr.payloadLength ≤ config.maxPayload) && decide (ds.hdr = ds.hbuf.parse)
  | .readCrc =>
    ds.hcnt == 8 && decide (ds.pcnt.toNat = ds.hdr.payloadLength.toNat) && decide (ds.ccnt.toNat < 2) &&
      decide (ds.hdr.payloadLength ≤ config.maxPayload) && decide (ds.hdr = ds.hbuf.parse)

/-- The invariant of the decoder: the table of R23, and the payload buffer in its canonical form. -/
def DecState.inv (ds : DecState) : Bool := ds.tableRow && ds.pbuf.wf

/-- `s.Inv`: the decoder of `s` meets its invariant. No other part of the state is constrained. -/
abbrev State.Inv (s : State) : Prop := s.dec.inv = true

/-- The state a clear leaves (R25, R92), so far as the spec fixes it. -/
abbrev DecState.Cleared (ds : DecState) : Prop :=
  ds.ps = .seekSof1 ∧ ds.hcnt = 0 ∧ ds.pcnt = 0 ∧ ds.ccnt = 0

/-- The decoder is between frames (R103). -/
abbrev DecState.Searching (ds : DecState) : Prop := ds.ps = .seekSof1 ∨ ds.ps = .seekSof2

/-- The sum type of R24. -/
inductive DecView where
  | seekSof1
  | seekSof2
  | readHeader (h : List Byte)
  | readPayload (h : HeaderBytes) (p : List Byte)
  | readCrc (h : HeaderBytes) (p : List Byte) (c : List Byte)
  deriving DecidableEq, Repr

/-- `pbuf[0 .. n-1]`. -/
def payloadPrefix (ds : DecState) (n : Nat) : List Byte := (List.range n).map ds.pbuf.read

/-- What a decoder state holds in the sense of R24: the bytes stored for the frame being received. -/
def DecState.view (ds : DecState) : DecView :=
  match ds.ps with
  | .seekSof1 => .seekSof1
  | .seekSof2 => .seekSof2
  | .readHeader => .readHeader (ds.hbuf.toList.take ds.hcnt.toNat)
  | .readPayload => .readPayload ds.hbuf (payloadPrefix ds ds.pcnt.toNat)
  | .readCrc =>
    .readCrc ds.hbuf (payloadPrefix ds ds.pcnt.toNat) ([ds.cbuf.b0, ds.cbuf.b1].take ds.ccnt.toNat)

/-- What becomes of eight header bytes (R95), on the view. -/
def DecView.headerDone (h : HeaderBytes) : DecView × Option Event :=
  if config.maxPayload < h.parse.payloadLength then
    (.seekSof1, some (.err .frameTooLarge h.parse.payloadLength))
  else if h.parse.payloadLength = 0 then (.readCrc h [] [], none)
  else (.readPayload h [], none)

/-- What becomes of a whole frame (R97), on the view. -/
def DecView.frameDone (h : HeaderBytes) (p : List Byte) (expected : Word) : DecView × Option Event :=
  if crc16 (h.toList ++ p) = expected then (.seekSof1, some (.frame ⟨h.parse, p⟩))
  else (.seekSof1, some (.err .crcMismatch (crc16 (h.toList ++ p))))

/-- One byte on the view of R24: the automaton of 95_test_vectors.md section 6, over lists. -/
def DecView.byte (v : DecView) (d : Byte) : DecView × Option Event :=
  match v with
  | .seekSof1 => (if d = config.sof1 then .seekSof2 else .seekSof1, none)
  | .seekSof2 =>
    (if d = config.sof2 then .readHeader [] else if d = config.sof1 then .seekSof2 else .seekSof1, none)
  | .readHeader h =>
    match h ++ [d] with
    | [b0, b1, b2, b3, b4, b5, b6, b7] => DecView.headerDone ⟨b0, b1, b2, b3, b4, b5, b6, b7⟩
    | h' => (.readHeader h', none)
  | .readPayload h p =>
    if (p ++ [d]).length = h.parse.payloadLength.toNat then (.readCrc h (p ++ [d]) [], none)
    else (.readPayload h (p ++ [d]), none)
  | .readCrc h p c =>
    match c ++ [d] with
    | [c0, c1] => DecView.frameDone h p (u16le c0 c1)
    | c' => (.readCrc h p c', none)

/-- The payload cell the next byte is stored to, if any: the index `readPayloadByte` stores to (R96, R107). -/
def storeIndex (ds : DecState) : Option Nat :=
  if ds.ps = .readPayload then some ds.pcnt.toNat else none

/-- The payload cells a chunk stores to, byte after byte. -/
def feedStores : DecState → List Byte → List Nat
  | _, [] => []
  | ds, d :: bs =>
    (storeIndex ds).toList ++
      match decByte ds d with
      | .ok (ds1, _) => feedStores ds1 bs
      | .error _ => []

/-- The three units (R10). -/
inductive BlockUnit where
  | crc
  | decoder
  | encoder
  deriving DecidableEq, Repr

end Sys2Proof.Machine

namespace Sys2Proof

/-- The unit that executes an instruction (R5, R10); a received frame is the decoder's. -/
def Instr.unit : Instr → Machine.BlockUnit
  | .crcInit => .crc
  | .crcByte _ => .crc
  | .crcCompute _ => .crc
  | .decReset => .decoder
  | .decByte _ => .decoder
  | .decFeed _ => .decoder
  | .encEncode _ => .encoder
  | .frameAlive _ => .decoder
  | .frameCommand _ => .decoder
  | .frameResponse _ => .decoder
  | .frameTelemetry _ => .decoder
  | .frameEvent _ => .decoder

end Sys2Proof
end

