-- ==== Sys2Proof/Certificates/Slice0/Obligations.lean ====
section
/-! DEFINITION. The statements for the provers. Each docstring names the rule of spec/ it formalises, and the
log entry where a clause is the model's own. -/

open Sys2Proof Sys2Proof.Machine

/-! ### Encodings -/

/-- R67, R69, R50, R71: words written out from the spec's encodings decode to the instructions they stand for.
The order of the header operand's bytes is log entry 6, the frame instruction log entry 8. -/
def Obligations.SampleWordsDecode : Prop :=
  decode (.command 0x0 []) = .ok .crcInit ∧
  decode (.command 0x1 [0x01]) = .ok (.crcByte 0x01) ∧
  decode (.command 0x2 [0x31, 0x32]) = .ok (.crcCompute [0x31, 0x32]) ∧
  decode (.command 0x4 []) = .ok .decReset ∧
  decode (.command 0x5 [0xA5#8]) = .ok (.decByte 0xA5#8) ∧
  decode (.command 0x6 [0xA5#8, 0x5A#8]) = .ok (.decFeed [0xA5#8, 0x5A#8]) ∧
  decode (.command 0x8 [0x01, 0x02, 0x00, 0x01, 0x00, 0x01, 0x00, 0x03, 0x10, 0x20, 0x30]) =
    .ok (.encEncode ⟨⟨0x01, 0x02, 0x0001, 0x0001, 0x0003⟩, [0x10, 0x20, 0x30]⟩) ∧
  decode (.receive [0xA5#8, 0x5A#8, 0x01, 0x01, 0x00, 0x00, 0x00, 0x00, 0x00, 0x00, 0x91, 0x07]) =
    .ok (.frameAlive ⟨0x01, 0x0000, 0x0000, 0x0000, [], 0x0791⟩) ∧
  decode (.receive [0xA5#8, 0x5A#8, 0x02, 0x05, 0x00, 0x00, 0xFF, 0xFF, 0x01, 0x00, 0xFF, 0xE6, 0x2F]) =
    .ok (.frameEvent ⟨0x02, 0x0000, 0xFFFF#16, 0x0001, [0xFF], 0x2FE6⟩)

/-- R68: the reserved command codes are the nine listed, and a line with one is refused, with no next state and
so no outcome, whatever its operand. -/
def Obligations.ReservedCodesRefused : Prop :=
  ∀ cmd : BitVec 4,
    (operationOf cmd = none ↔ cmd ∈ [0x3#4, 0x7#4, 0x9#4, 0xA#4, 0xB#4, 0xC#4, 0xD#4, 0xE#4, 0xF#4]) ∧
    (operationOf cmd = none → ∀ (operand : List Byte) (rest : List Input) (s : State),
      s.inputs = .line (.command cmd operand) :: rest → step s = .refused (.reservedCommand cmd))

/-- R69: a command with the wrong number of operand bytes is no instruction, for each operation that has a fixed
number or a least number of them. That such a line is refused is log entry 7. -/
def Obligations.WrongOperandCountRejected : Prop :=
  ∀ operand : List Byte,
    (operand.length ≠ 0 → decode (.command 0x0 operand) = .error (.badOperand "CRC.INIT") ∧
      decode (.command 0x4 operand) = .error (.badOperand "DEC.RESET")) ∧
    (operand.length ≠ 1 → decode (.command 0x1 operand) = .error (.badOperand "CRC.BYTE") ∧
      decode (.command 0x5 operand) = .error (.badOperand "DEC.BYTE")) ∧
    (operand.length < 8 → decode (.command 0x8 operand) = .error (.badOperand "ENC.ENCODE"))

/-- R71: a command code selects at most one `OP` row, and the first bytes of a frame at most one `FRAME` row. -/
def Obligations.TableRowsDisjoint : Prop :=
  (∀ r₁ ∈ opRows, ∀ r₂ ∈ opRows, ∀ cmd, r₁.selectedBy cmd = true → r₂.selectedBy cmd = true → r₁ = r₂) ∧
  (∀ r₁ ∈ frameRows, ∀ r₂ ∈ frameRows, ∀ bytes,
    r₁.selectedBy bytes = true → r₂.selectedBy bytes = true → r₁ = r₂)

/-- R50, R51, R53, R67, R69: decoding what the encoder writes for a well-formed instruction gives it back, with
every operand at every value. -/
def Obligations.DecodeOfEncode : Prop :=
  ∀ i : Instr, i.WellFormed → decode (encode i) = .ok i

/-- The other direction: a line that decodes is the encoding of its instruction, but for a received chunk that
is no whole frame of a named type, which decodes to the feeding of its bytes (log entry 9). -/
def Obligations.EncodeOfDecode : Prop :=
  ∀ (l : Line) (i : Instr), decode l = .ok i →
    i.WellFormed ∧ (encode i = l ∨ ∃ bytes, l = .receive bytes ∧ i = .decFeed bytes)

/-- R51: the two header maps are inverse to each other. -/
def Obligations.HeaderMapsInverse : Prop :=
  (∀ h : FrameHeader, h.bytes.parse = h) ∧ (∀ b : HeaderBytes, b.parse.bytes = b)

/-! ### The step -/

/-- R27, R41, R43: a step serves the oldest pending input: it runs the decoded instruction on the state without
that input, refuses a line that is none, resets on `rst`, and keeps the state when nothing is pending (R144).
The list of pending inputs is the model's (log entry 4). That a reserved code is refused is the spec's decision D3,
that a wrong number of operand bytes is refused too is log entry 7, and that a refusal has no next state is log entry
16. -/
def Obligations.StepRunsDecodedInstruction : Prop :=
  ∀ (s : State) (rest : List Input),
    (∀ l i, s.inputs = .line l :: rest → decode l = .ok i → step s = exec i { s with inputs := rest }) ∧
    (∀ l e, s.inputs = .line l :: rest → decode l = .error e → step s = .refused (refusalOf e)) ∧
    (s.inputs = .rst :: rest → step s = .next (hardwareReset { s with inputs := rest })) ∧
    (s.inputs = [] → step s = .next s)

/-- R150, R25: creation, `rst`, DEC.RESET and the internal clear after an event leave the decoder searching
with all counters 0; hardware reset alone also sets `crc_acc`. That creation equals a reset, the counters' zero
and the value of `crc_acc` are the spec's decision D10; that `rst` leaves the inputs behind it pending is log entry
4. -/
def Obligations.ResetsClearDecoder : Prop :=
  (State.reset.dec.Cleared ∧ State.reset.crcAcc = 0xFFFF#16) ∧
  (∀ (s : State) (rest : List Input), s.inputs = .rst :: rest →
    ∃ t, step s = .next t ∧ t.dec.Cleared ∧ t.crcAcc = 0xFFFF#16 ∧ t.inputs = rest ∧ t.decOutcome = none) ∧
  (∀ s : State, ∃ t, exec .decReset s = .next t ∧ t.dec.Cleared ∧ t.crcAcc = s.crcAcc ∧ t.decOutcome = none) ∧
  (∀ (s t : State) (d : Byte) (e : Event), exec (.decByte d) s = .next t →
    t.outcomes = s.outcomes ++ [.stepOutcome (some e)] → t.dec.Cleared ∧ t.crcAcc = s.crcAcc)

/-! ### The CRC unit -/

/-- R82: CRC.INIT. The accumulator and the command code are the spec's decisions D2, D11 and D3. -/
def Obligations.CrcInitLoadsInit : Prop :=
  decode (.command 0x0 []) = .ok .crcInit ∧
  ∀ s : State, exec .crcInit s = .next { s with crcAcc := 0xFFFF#16, outcomes := s.outcomes ++ [.nothing] }

/-- R83: CRC.BYTE, with its pseudocode written out, its corner cases and its example. The entry of the byte by
XOR into the low half is the spec's G1 (log entry 12); the accumulator and the command code are its decisions
D2, D11 and D3. -/
def Obligations.CrcByteShiftsEightTimes : Prop :=
  (∀ d, decode (.command 0x1 [d]) = .ok (.crcByte d)) ∧
  (∀ (d : Byte) (s : State),
    let c := (fun c : Word => if c.getLsbD 0 then (c >>> 1) ^^^ 0xA001#16 else c >>> 1)^[8]
      (s.crcAcc ^^^ d.setWidth 16)
    exec (.crcByte d) s = .next { s with crcAcc := c, outcomes := s.outcomes ++ [.crcOut c] }) ∧
  crcByte 0xFFFF#16 0x00 = 0x40BF ∧ crcByte 0x0000 0x00 = 0x0000 ∧ crcByte 0xFFFF#16 0x01 = 0x807E ∧
  (∀ (c : Word) (d : Byte), crcByte c d = crcByte (c ^^^ d.setWidth 16) 0x00)

/-- R84: CRC.COMPUTE from any state, its empty case, the zero residue and the example. The command code is the
spec's decision D3, the entry of the byte and the missing output step its G1 and G2 (log entry 12). -/
def Obligations.CrcComputeFoldsFromInit : Prop :=
  (∀ bs, decode (.command 0x2 bs) = .ok (.crcCompute bs)) ∧
  (∀ (bs : List Byte) (s : State), exec (.crcCompute bs) s =
    .next { s with crcAcc := bs.foldl crcByte 0xFFFF#16, outcomes := s.outcomes ++ [.crcOut (crc16 bs)] } ∧
    bs.foldl crcByte 0xFFFF#16 = crc16 bs) ∧
  crc16 [] = 0xFFFF#16 ∧
  (∀ bs : List Byte, crc16 (bs ++ [lo8 (crc16 bs), hi8 (crc16 bs)]) = 0x0000) ∧
  crc16 [0x31, 0x32, 0x33, 0x34, 0x35, 0x36, 0x37, 0x38, 0x39] = 0x4B37

/-- R81: `crc16` is the left fold of `crc_byte` from CRC_INIT, so it splits at any point. The absence of an
output step is the spec's G2 (log entry 12). -/
def Obligations.Crc16IsLeftFold : Prop :=
  crc16 [] = 0xFFFF#16 ∧
  (∀ (bs : List Byte) (d : Byte), crc16 (bs ++ [d]) = crcByte (crc16 bs) d) ∧
  (∀ a b : List Byte, crc16 (a ++ b) = b.foldl crcByte (crc16 a))

/-- R88: the bit-serial form, written out, equals the byte form. That the constant is the bit reversal of 0x8005
is the spec's G4. -/
def Obligations.CrcSerialFormAgrees : Prop :=
  (∀ (c : Word) (d : Byte),
    (List.range 8).foldl
      (fun (c : Word) (i : Nat) =>
        if c.getLsbD 0 ^^ d.getLsbD i then (c >>> 1) ^^^ 0xA001#16 else c >>> 1) c = crcByte c d) ∧
  (∀ i, config.crcPoly.getLsbD i = true ↔ i = 15 ∨ i = 13 ∨ i = 0) ∧
  config.crcPoly = (0x8005#16).reverse

/-- R70: CRC.COMPUTE leaves in `crc_acc` what CRC.INIT and one CRC.BYTE for each byte leave there. -/
def Obligations.ComputeIsInitThenBytes : Prop :=
  (∀ s : State, ∃ t u, exec (.crcCompute []) s = .next t ∧ exec .crcInit s = .next u ∧ t.crcAcc = u.crcAcc) ∧
  (∀ (s : State) (bs : List Byte) (d : Byte), ∃ t u v, exec (.crcCompute bs) s = .next t ∧
    exec (.crcByte d) t = .next u ∧ exec (.crcCompute (bs ++ [d])) s = .next v ∧ v.crcAcc = u.crcAcc)

/-- R86 (a): for a fixed byte, `crc_byte` permutes the register values. -/
def Obligations.CrcByteBijective : Prop :=
  ∀ d : Byte, Function.Bijective (fun c => crcByte c d)

/-- R86 (b): linearity over XOR. -/
def Obligations.CrcByteLinear : Prop :=
  crcByte 0 0 = 0 ∧
  ∀ (a b : Word) (d e : Byte), crcByte (a ^^^ b) (d ^^^ e) = crcByte a d ^^^ crcByte b e

/-- R86 (c), for a change of any bits of one byte and any message length: the CRC changes. -/
def Obligations.CrcDetectsOneChangedByte : Prop :=
  ∀ (a b : List Byte) (d e : Byte), d ≠ e → crc16 (a ++ d :: b) ≠ crc16 (a ++ e :: b)

/-! ### The decoder, byte by byte -/

/-- R90, R92: DEC.RESET completes in every state: the parse state and the counters are cleared, it returns `None`
and nothing else of the machine changes; a state already cleared is left as it is. That the buffers and `hdr` are
kept is log entry 3, the command code the spec's decision D3. -/
def Obligations.DecResetClears : Prop :=
  decode (.command 0x4 []) = .ok .decReset ∧
  (∀ s : State, exec .decReset s =
    .next { s with
      dec := { s.dec with ps := .seekSof1, hcnt := 0, pcnt := 0, ccnt := 0 }
      outcomes := s.outcomes ++ [.stepOutcome none] }) ∧
  (∀ s : State, s.dec.Cleared →
    exec .decReset s = .next { s with outcomes := s.outcomes ++ [.stepOutcome none] })

/-- R93: a byte in SeekSof1. -/
def Obligations.SeekSof1Step : Prop :=
  ∀ (s : State) (d : Byte), s.dec.ps = .seekSof1 →
    exec (.decByte d) s =
      .next { s with
        dec := { s.dec with ps := if d = 0xA5#8 then .seekSof2 else .seekSof1 }
        outcomes := s.outcomes ++ [.stepOutcome none] }

/-- R94: a byte in SeekSof2. -/
def Obligations.SeekSof2Step : Prop :=
  ∀ (s : State) (d : Byte), s.dec.ps = .seekSof2 →
    exec (.decByte d) s =
      .next { s with
        dec := if d = 0x5A#8 then { s.dec with ps := .readHeader, hcnt := 0 }
          else if d = 0xA5#8 then s.dec else { s.dec with ps := .seekSof1 }
        outcomes := s.outcomes ++ [.stepOutcome none] }

/-- R95: a byte in ReadHeader. `hb` is the header buffer with cell `hcnt` replaced. What the error carries is the
spec's decision D5; that the clear keeps `pbuf` is log entry 3. -/
def Obligations.ReadHeaderStep : Prop :=
  ∀ (s : State) (d : Byte) (hb : HeaderBytes), s.dec.ps = .readHeader → s.dec.hcnt.toNat < 8 →
    hb.toList = s.dec.hbuf.toList.set s.dec.hcnt.toNat d →
    ∃ t o, exec (.decByte d) s = .next t ∧ t.crcAcc = s.crcAcc ∧ t.inputs = s.inputs ∧
      t.outcomes = s.outcomes ++ [.stepOutcome o] ∧
      if s.dec.hcnt.toNat < 7 then
        t.dec = { s.dec with hbuf := hb, hcnt := s.dec.hcnt + 1 } ∧ o = none
      else if 4096#16 < hb.parse.payloadLength then
        t.dec.Cleared ∧ t.dec.pbuf = s.dec.pbuf ∧ o = some (.err .frameTooLarge hb.parse.payloadLength)
      else if hb.parse.payloadLength = 0 then
        t.dec = { s.dec with
          ps := .readCrc, hbuf := hb, hcnt := 8, pcnt := 0, ccnt := 0, hdr := hb.parse } ∧ o = none
      else
        t.dec = { s.dec with ps := .readPayload, hbuf := hb, hcnt := 8, pcnt := 0, hdr := hb.parse } ∧ o = none

/-- R96: a byte in ReadPayload. The cell at `pcnt` takes the byte and every other cell keeps its value. -/
def Obligations.ReadPayloadStep : Prop :=
  ∀ (s : State) (d : Byte), s.Inv → s.dec.ps = .readPayload →
    ∃ t, exec (.decByte d) s = .next t ∧ t.crcAcc = s.crcAcc ∧ t.inputs = s.inputs ∧
      t.outcomes = s.outcomes ++ [.stepOutcome none] ∧
      t.dec.pbuf.read s.dec.pcnt.toNat = d ∧
      (∀ a, a ≠ s.dec.pcnt.toNat → t.dec.pbuf.read a = s.dec.pbuf.read a) ∧
      (if s.dec.pcnt.toNat + 1 = s.dec.hdr.payloadLength.toNat then
        t.dec = { s.dec with ps := .readCrc, pbuf := t.dec.pbuf, pcnt := s.dec.pcnt + 1, ccnt := 0 }
      else t.dec = { s.dec with pbuf := t.dec.pbuf, pcnt := s.dec.pcnt + 1 })

/-- R97: a byte in ReadCrc. What the error carries is the spec's decision D5. -/
def Obligations.ReadCrcStep : Prop :=
  ∀ (s : State) (d : Byte), s.dec.ps = .readCrc → s.dec.hdr.payloadLength ≤ 4096#16 →
    (s.dec.ccnt = 0 → exec (.decByte d) s =
      .next { s with
        dec := { s.dec with cbuf := { s.dec.cbuf with b0 := d }, ccnt := 1 }
        outcomes := s.outcomes ++ [.stepOutcome none] }) ∧
    (s.dec.ccnt = 1 →
      ∃ t o, exec (.decByte d) s = .next t ∧ t.dec.Cleared ∧ t.crcAcc = s.crcAcc ∧ t.inputs = s.inputs ∧
        t.outcomes = s.outcomes ++ [.stepOutcome (some o)] ∧
        let p := (List.range s.dec.hdr.payloadLength.toNat).map s.dec.pbuf.read
        let computed := crc16 (s.dec.hbuf.toList ++ p)
        o = if computed = u16le s.dec.cbuf.b0 d then .frame ⟨s.dec.hdr, p⟩ else .err .crcMismatch computed)

/-- R98: every row of the transition table, with the outcome's kind; and DEC.RESET leads to SeekSof1 from
everywhere. -/
def Obligations.TransitionTable : Prop :=
  (∀ (s : State) (d : Byte), s.Inv →
    let len := u16le s.dec.hbuf.b6 d
    let computed := crc16 (s.dec.hbuf.toList ++ payloadPrefix s.dec s.dec.pcnt.toNat)
    ∃ t o, exec (.decByte d) s = .next t ∧ t.outcomes = s.outcomes ++ [.stepOutcome o] ∧
      match s.dec.ps with
      | .seekSof1 => t.dec.ps = (if d = 0xA5#8 then .seekSof2 else .seekSof1) ∧ o = none
      | .seekSof2 =>
        t.dec.ps = (if d = 0x5A#8 then .readHeader else if d = 0xA5#8 then .seekSof2 else .seekSof1) ∧ o = none
      | .readHeader =>
        if s.dec.hcnt.toNat < 7 then t.dec.ps = .readHeader ∧ o = none
        else if 4096#16 < len then t.dec.ps = .seekSof1 ∧ ∃ info, o = some (.err .frameTooLarge info)
        else if len = 0 then t.dec.ps = .readCrc ∧ o = none
        else t.dec.ps = .readPayload ∧ o = none
      | .readPayload =>
        t.dec.ps = (if s.dec.pcnt.toNat + 1 < s.dec.hdr.payloadLength.toNat then .readPayload else .readCrc) ∧
          o = none
      | .readCrc =>
        if s.dec.ccnt = 0 then t.dec.ps = .readCrc ∧ o = none
        else if computed = u16le s.dec.cbuf.b0 d then t.dec.ps = .seekSof1 ∧ ∃ f, o = some (.frame f)
        else t.dec.ps = .seekSof1 ∧ ∃ info, o = some (.err .crcMismatch info)) ∧
  (∀ s : State, ∃ t, exec .decReset s = .next t ∧ t.dec.ps = .seekSof1)

/-- R131, R132: each error is raised exactly when its rule says, with no frame then. -/
def Obligations.ErrorsExactlyWhen : Prop :=
  ∀ (s t : State) (d : Byte) (o : Option Event), s.Inv → exec (.decByte d) s = .next t →
    t.outcomes = s.outcomes ++ [.stepOutcome o] →
    let computed := crc16 (s.dec.hbuf.toList ++ payloadPrefix s.dec s.dec.hdr.payloadLength.toNat)
    ((∃ info, o = some (.err .frameTooLarge info)) ↔
      s.dec.ps = .readHeader ∧ s.dec.hcnt = 7 ∧ 4096#16 < u16le s.dec.hbuf.b6 d) ∧
    ((∃ info, o = some (.err .crcMismatch info)) ↔
      s.dec.ps = .readCrc ∧ s.dec.ccnt = 1 ∧ computed ≠ u16le s.dec.cbuf.b0 d)

/-- R97, R133: a frame comes out exactly when the CRC agrees, and what each event carries. The value of `err_info`
is the spec's decision D5. -/
def Obligations.EventsCarry : Prop :=
  ∀ (s t : State) (d : Byte) (e : Event), s.Inv → exec (.decByte d) s = .next t →
    t.outcomes = s.outcomes ++ [.stepOutcome (some e)] →
    let p := payloadPrefix s.dec s.dec.hdr.payloadLength.toNat
    let computed := crc16 (s.dec.hbuf.toList ++ p)
    (∀ info, e = .err .frameTooLarge info → info = u16le s.dec.hbuf.b6 d) ∧
    (∀ info, e = .err .crcMismatch info → info = computed) ∧
    (∀ f, e = .frame f ↔
      s.dec.ps = .readCrc ∧ s.dec.ccnt = 1 ∧ computed = u16le s.dec.cbuf.b0 d ∧ f = ⟨s.dec.hdr, p⟩)

/-- R92: the clear shared by DEC.RESET, by the end of every completed frame and by every error. -/
def Obligations.ClearIsShared : Prop :=
  (∀ s : State, ∃ t, exec .decReset s = .next t ∧ t.dec.Cleared) ∧
  (∀ (s t : State) (d : Byte) (f : Frame), exec (.decByte d) s = .next t →
    t.outcomes = s.outcomes ++ [.stepOutcome (some (.frame f))] → t.dec.Cleared) ∧
  (∀ (s t : State) (d : Byte) (r : ErrReason) (info : Word), exec (.decByte d) s = .next t →
    t.outcomes = s.outcomes ++ [.stepOutcome (some (.err r info))] → t.dec.Cleared)

/-- R12, R13, R14, R30: DEC.BYTE faults exactly when it would use a buffer cell that does not exist, which R23
rules out. That it faults there is log entry 11. -/
def Obligations.FaultsExactlyOutsideBuffers : Prop :=
  ∀ (s : State) (d : Byte) (x : Fault), exec (.decByte d) s = .fault x ↔
    (x = .headerIndex ∧ s.dec.ps = .readHeader ∧ 8 ≤ s.dec.hcnt.toNat) ∨
    (x = .payloadIndex ∧ s.dec.ps = .readPayload ∧ 4096 ≤ s.dec.pcnt.toNat) ∨
    (x = .payloadIndex ∧ s.dec.ps = .readCrc ∧ s.dec.ccnt = 1 ∧ 4096#16 < s.dec.hdr.payloadLength) ∨
    (x = .crcIndex ∧ s.dec.ps = .readCrc ∧ 2 ≤ s.dec.ccnt.toNat)

/-- R18, R27, R130, R133, R136: the value of each signal for `None`, for a frame and for each error; that a frame and
an error are never signalled together; and that the signals after a DEC.BYTE are those of its outcome. The codes and
what `err_info` carries are the spec's decision D5. That `err_info` and the frame outputs have no value without their
valid signal, and the record the outcome is read from, are log entry 5. -/
def Obligations.SignalsExclusive : Prop :=
  (frmValid none = 0 ∧ errValid none = 0 ∧ errCode none = 0 ∧ errInfo none = none ∧ frmOut none = none) ∧
  (∀ f : Frame,
    frmValid (some (.frame f)) = 1 ∧ errValid (some (.frame f)) = 0 ∧ errCode (some (.frame f)) = 0 ∧
    errInfo (some (.frame f)) = none ∧ frmOut (some (.frame f)) = some f) ∧
  (∀ (r : ErrReason) (info : Word),
    frmValid (some (.err r info)) = 0 ∧ errValid (some (.err r info)) = 1 ∧
    errInfo (some (.err r info)) = some info ∧ frmOut (some (.err r info)) = none) ∧
  (∀ info : Word,
    errCode (some (.err .frameTooLarge info)) = 1 ∧ errCode (some (.err .crcMismatch info)) = 2) ∧
  (∀ o : Option Event,
    ¬ (frmValid o = 1 ∧ errValid o = 1) ∧ (errValid o = 0 ↔ errCode o = 0) ∧ errCode o ≠ 3 ∧
    (errValid o = 1 ↔ (errInfo o).isSome = true) ∧ (frmValid o = 1 ↔ (frmOut o).isSome = true)) ∧
  (∀ (s t : State) (d : Byte) (o : Option Event), exec (.decByte d) s = .next t →
    t.outcomes = s.outcomes ++ [.stepOutcome o] → t.decOutcome = o)

/-! ### The decoder, chunk by chunk -/

/-- R100, R101: the empty chunk changes nothing, and a longer one is one DEC.BYTE for each byte in order, the
outcomes other than `None` collected; that an error does not end it is the spec's decision D4 (log entry 14), the
command code its decision D3. -/
def Obligations.FeedIsByteSteps : Prop :=
  (∀ bs, decode (.command 0x6 bs) = .ok (.decFeed bs)) ∧
  (∀ s : State, exec (.decFeed []) s = .next { s with outcomes := s.outcomes ++ [.events []] }) ∧
  (∀ (s t u : State) (d : Byte) (bs : List Byte) (o : Option Event) (es : List Event),
    exec (.decByte d) s = .next t → t.outcomes = s.outcomes ++ [.stepOutcome o] →
    exec (.decFeed bs) t = .next u → u.outcomes = t.outcomes ++ [.events es] →
    exec (.decFeed (d :: bs)) s = .next { u with outcomes := s.outcomes ++ [.events (o.toList ++ es)] })

/-- R102: fragmentation invariance, from every state of the invariant. It holds of errors by D4 (log entry
14). -/
def Obligations.FragmentationInvariance : Prop :=
  ∀ (s : State) (a b : List Byte), s.Inv →
    ∃ t u e₁ e₂, exec (.decFeed a) s = .next t ∧ t.outcomes = s.outcomes ++ [.events e₁] ∧
      exec (.decFeed b) t = .next u ∧ u.outcomes = t.outcomes ++ [.events e₂] ∧
      exec (.decFeed (a ++ b)) s = .next { u with outcomes := s.outcomes ++ [.events (e₁ ++ e₂)] }

/-- R93: bytes other than SOF1 are discarded in SeekSof1, however many. -/
def Obligations.NoiseIsDiscarded : Prop :=
  ∀ (s : State) (noise : List Byte), s.dec.ps = .seekSof1 → 0xA5#8 ∉ noise →
    exec (.decFeed noise) s = .next { s with outcomes := s.outcomes ++ [.events []] }

/-- R103: round trip. Whatever the encoder returns for a valid frame, in any state, the decoder turns into
exactly that frame from any state between frames, and ends cleared. -/
def Obligations.RoundTrip : Prop :=
  ∀ (f : Frame) (s : State), f.Valid →
    ∃ w, exec (.encEncode f) s = .next { s with outcomes := s.outcomes ++ [.txBytes w] } ∧
      ∀ u : State, u.Inv → u.dec.Searching →
        ∃ t, exec (.decFeed w) u = .next t ∧ t.outcomes = u.outcomes ++ [.events [.frame f]] ∧
          t.dec.Cleared ∧ t.crcAcc = u.crcAcc ∧ t.inputs = u.inputs

/-- R93, R94, R103: noise without SOF1, then any number of stray SOF1, then a valid frame: the frame alone comes
out. -/
def Obligations.NoiseThenFrameDecodes : Prop :=
  ∀ (f : Frame) (s : State) (noise : List Byte) (k : Nat), f.Valid → s.Inv → s.dec.ps = .seekSof1 →
    0xA5#8 ∉ noise →
    ∃ t, exec (.decFeed (noise ++ List.replicate k 0xA5#8 ++ encodeFrame f)) s = .next t ∧
      t.outcomes = s.outcomes ++ [.events [.frame f]] ∧ t.dec.Cleared

/-- R106: one payload byte of an encoded frame changed: that frame gives one CrcMismatch and the frame right
after it decodes. The change of one byte always changes the CRC (R86), so the proviso of R106 holds. That the
second frame in the same chunk is delivered is D4 (log entry 14). -/
def Obligations.ResyncAfterBadCrc : Prop :=
  ∀ (f g : Frame) (s : State) (i : Nat) (d : Byte), f.Valid → g.Valid → s.Inv → s.dec.ps = .seekSof1 →
    (hi : i < f.payload.length) → d ≠ f.payload[i] →
    ∃ t, exec (.decFeed ((encodeFrame f).set (10 + i) d ++ encodeFrame g)) s = .next t ∧
      t.outcomes = s.outcomes ++
        [.events [.err .crcMismatch (crc16 (f.header.bytes.toList ++ f.payload.set i d)), .frame g]] ∧
      t.dec.Cleared

/-- R86 (c), R97: an encoded frame with any one byte changed, but for the SOF pair and the two length bytes, is
never accepted: it gives one CrcMismatch. -/
def Obligations.OneByteDamageRejected : Prop :=
  ∀ (f : Frame) (s : State) (k : Nat) (d : Byte), f.Valid → s.Inv → s.dec.Searching →
    (hk : k < (encodeFrame f).length) → 2 ≤ k → k ≠ 8 → k ≠ 9 → d ≠ (encodeFrame f)[k] →
    ∃ t info, exec (.decFeed ((encodeFrame f).set k d)) s = .next t ∧
      t.outcomes = s.outcomes ++ [.events [.err .crcMismatch info]] ∧ t.dec.Cleared

/-- R64, R95: a header that announces an illegal length gives FrameTooLarge with its eighth byte, no payload cell
is stored, and the decoder is cleared. That the clear keeps `pbuf` is log entry 3, what the error carries the
spec's decision D5. -/
def Obligations.OversizedHeaderRejected : Prop :=
  ∀ (h : FrameHeader) (s : State), s.dec.Searching → 4096#16 < h.payloadLength →
    ∃ t, exec (.decFeed ([0xA5#8, 0x5A#8] ++ h.bytes.toList)) s = .next t ∧
      t.outcomes = s.outcomes ++ [.events [.err .frameTooLarge h.payloadLength]] ∧
      t.dec.Cleared ∧ t.dec.pbuf = s.dec.pbuf ∧ t.crcAcc = s.crcAcc

/-- R104, R105: past the header, exactly the bytes that complete the announced frame are taken, whatever their
values: fewer give no event and do not leave the frame, and the last of them gives exactly one event. -/
def Obligations.FrameTakesItsAnnouncedBytes : Prop :=
  ∀ (s : State) (bs : List Byte), s.Inv → s.dec.ps = .readPayload ∨ s.dec.ps = .readCrc →
    let left := (s.dec.hdr.payloadLength.toNat - s.dec.pcnt.toNat) + (2 - s.dec.ccnt.toNat)
    (bs.length < left → ∃ t, exec (.decFeed bs) s = .next t ∧ t.outcomes = s.outcomes ++ [.events []] ∧
      (t.dec.ps = .readPayload ∨ t.dec.ps = .readCrc)) ∧
    (bs.length = left → ∃ t e, exec (.decFeed bs) s = .next t ∧ t.outcomes = s.outcomes ++ [.events [e]] ∧
      t.dec.Cleared)

/-- R97, R98, R50: a frame comes out only when its own wire bytes, as the encoder writes them, were the latest
bytes received (from a state that holds no partial frame). -/
def Obligations.EmittedFrameWasOnTheWire : Prop :=
  ∀ (s t u : State) (bs : List Byte) (d : Byte) (f : Frame), s.Inv → s.dec.ps = .seekSof1 →
    exec (.decFeed bs) s = .next t → exec (.decByte d) t = .next u →
    u.outcomes = t.outcomes ++ [.stepOutcome (some (.frame f))] →
    f.Valid ∧ ∃ before, bs ++ [d] = before ++ encodeFrame f

/-- R21: every frame among the events of a chunk is valid. -/
def Obligations.EmittedFramesValid : Prop :=
  ∀ (s t : State) (bs : List Byte) (es : List Event) (f : Frame), s.Inv → exec (.decFeed bs) s = .next t →
    t.outcomes = s.outcomes ++ [.events es] → Event.frame f ∈ es → f.Valid

/-- R90, R41 (b): DEC.RESET cuts the stream: what comes out after it, from any state, is what comes out after a
hardware reset. -/
def Obligations.DecResetCutsStream : Prop :=
  ∀ (s : State) (bs : List Byte), s.Inv →
    ∃ t u v es, exec .decReset s = .next t ∧ exec (.decFeed bs) t = .next u ∧
      u.outcomes = t.outcomes ++ [.events es] ∧
      exec (.decFeed bs) State.reset = .next v ∧ v.outcomes = [.events es]

/-! ### Invariant, progress, views -/

/-- R23 at reset (R25). The reset contents of the buffers do not matter to it. -/
def Obligations.InvariantAtReset : Prop := State.reset.Inv

/-- R23: every step keeps the table's invariant and the canonical form of the payload buffer. -/
def Obligations.StepKeepsInvariant : Prop :=
  ∀ s t : State, s.Inv → step s = .next t → t.Inv

/-- R161: from the invariant no step ends in a fault. -/
def Obligations.StepNeverFaults : Prop :=
  ∀ (s : State) (x : Fault), s.Inv → step s ≠ .fault x

/-- R91, R161: from the invariant every instruction completes, but for ENC.ENCODE of an invalid frame (R121). -/
def Obligations.EveryInstructionCompletes : Prop :=
  ∀ (i : Instr) (s : State), s.Inv → (∀ f, i = .encEncode f → f.Valid) → ∃ t, exec i s = .next t ∧ t.Inv

/-- R24: under the invariant the register machine is the list automaton: the same outcomes, and views that move
together. -/
def Obligations.RefinesAbstractView : Prop :=
  ∀ (s : State) (d : Byte), s.Inv →
    ∃ t o, exec (.decByte d) s = .next t ∧ t.outcomes = s.outcomes ++ [.stepOutcome o] ∧
      s.dec.view.byte d = (t.dec.view, o)

/-- R44: contents that no rule may read never show: two states with the same view give the same events for every
chunk and end with the same view. The model's reset contents (log entries 1 to 3) are among them. -/
def Obligations.StaleContentsUnobservable : Prop :=
  ∀ (s₁ s₂ : State) (bs : List Byte), s₁.Inv → s₂.Inv → s₁.dec.view = s₂.dec.view →
    ∃ t₁ t₂ es, exec (.decFeed bs) s₁ = .next t₁ ∧ exec (.decFeed bs) s₂ = .next t₂ ∧
      t₁.outcomes = s₁.outcomes ++ [.events es] ∧ t₂.outcomes = s₂.outcomes ++ [.events es] ∧
      t₁.dec.view = t₂.dec.view

/-! ### Frames of the instructions and independence of the units -/

/-- R41 (c), R10, R26: what each unit's instructions leave unchanged, for every instruction. That each adds exactly one
response is log entry 5. -/
def Obligations.UnitsTouchOnlyTheirState : Prop :=
  ∀ (i : Instr) (s t : State), exec i s = .next t →
    (i.unit ≠ .decoder → t.dec = s.dec) ∧ (i.unit ≠ .crc → t.crcAcc = s.crcAcc) ∧
    t.inputs = s.inputs ∧ ∃ r, t.outcomes = s.outcomes ++ [r]

/-- R143: operations of different units give the same results and the same state in either order. -/
def Obligations.UnitsCommute : Prop :=
  ∀ (i j : Instr) (s t u : State) (r₁ r₂ : Response), i.unit ≠ j.unit →
    exec i s = .next t → exec j t = .next u →
    t.outcomes = s.outcomes ++ [r₁] → u.outcomes = t.outcomes ++ [r₂] →
    ∃ t' u', exec j s = .next t' ∧ t'.outcomes = s.outcomes ++ [r₂] ∧
      exec i t' = .next u' ∧ u'.outcomes = t'.outcomes ++ [r₁] ∧
      u'.dec = u.dec ∧ u'.crcAcc = u.crcAcc ∧ u'.inputs = u.inputs

/-- R37, R107: DEC.BYTE stores to at most one buffer cell, the one its counter names, and leaves every other cell
of every buffer and the rest of the machine alone. For a byte that ends in a clear this is log entry 3. -/
def Obligations.DecByteFrame : Prop :=
  ∀ (s t : State) (d : Byte), exec (.decByte d) s = .next t →
    (∀ a, storeIndex s.dec ≠ some a → t.dec.pbuf.read a = s.dec.pbuf.read a) ∧
    (∀ i, ¬ (s.dec.ps = .readHeader ∧ i = s.dec.hcnt.toNat) →
      t.dec.hbuf.toList[i]? = s.dec.hbuf.toList[i]?) ∧
    (¬ (s.dec.ps = .readCrc ∧ s.dec.ccnt = 0) → t.dec.cbuf.b0 = s.dec.cbuf.b0) ∧
    (¬ (s.dec.ps = .readCrc ∧ s.dec.ccnt = 1) → t.dec.cbuf.b1 = s.dec.cbuf.b1) ∧
    (¬ (s.dec.ps = .readHeader ∧ s.dec.hcnt = 7) → t.dec.hdr = s.dec.hdr) ∧
    t.crcAcc = s.crcAcc ∧ t.inputs = s.inputs

/-- R107: DEC.FEED and a received frame leave every payload cell alone that no byte of theirs stores to, and the
CRC accumulator and the pending inputs. Where a byte ends in a clear this is log entry 3. -/
def Obligations.DecFeedFrame : Prop :=
  (∀ (s t : State) (bs : List Byte), exec (.decFeed bs) s = .next t →
    (∀ a, a ∉ feedStores s.dec bs → t.dec.pbuf.read a = s.dec.pbuf.read a) ∧
    t.crcAcc = s.crcAcc ∧ t.inputs = s.inputs) ∧
  (∀ (s t : State) (y : FrameType) (b : FrameBody), exec (.frame y b) s = .next t →
    (∀ a, a ∉ feedStores s.dec (b.wire y) → t.dec.pbuf.read a = s.dec.pbuf.read a) ∧
    t.crcAcc = s.crcAcc ∧ t.inputs = s.inputs)

/-- R40: the length check keeps every payload index below 4096, for every chunk from the invariant. -/
def Obligations.StoresStayInPayloadBuffer : Prop :=
  ∀ (s : State) (bs : List Byte) (a : Nat), s.Inv → a ∈ feedStores s.dec bs → a < 4096

/-! ### The encoder -/

/-- R120: the wire bytes of a valid frame, written out; no state but the outcome changes. -/
def Obligations.EncodeReturnsWireBytes : Prop :=
  ∀ (f : Frame) (s : State), f.Valid →
    let h := f.header
    let covered := [h.version, h.type, lo8 h.messageId, hi8 h.messageId, lo8 h.sequence, hi8 h.sequence,
      lo8 h.payloadLength, hi8 h.payloadLength] ++ f.payload
    let c := crc16 covered
    exec (.encEncode f) s =
      .next { s with outcomes := s.outcomes ++ [.txBytes ([0xA5#8, 0x5A#8] ++ covered ++ [lo8 c, hi8 c])] }

/-- R121: ENC.ENCODE is refused exactly when the frame is not valid (the spec's decision D7). -/
def Obligations.EncodeRefusesInvalidFrames : Prop :=
  ∀ (f : Frame) (s : State),
    (¬ (f.payload.length = f.header.payloadLength.toNat ∧ f.header.payloadLength ≤ 4096#16) ↔
      exec (.encEncode f) s = .refused .invalidFrame)

/-- R122: length, layout and residue of an encoded frame, and the encoder is injective on valid frames. -/
def Obligations.EncodedFrameLayout : Prop :=
  (∀ f : Frame, f.Valid →
    let w := encodeFrame f
    let n := f.header.payloadLength.toNat
    w.length = 12 + n ∧ w[0]? = some 0xA5#8 ∧ w[1]? = some 0x5A#8 ∧
    (w.drop 2).take 8 = f.header.bytes.toList ∧ (w.drop 10).take n = f.payload ∧
    u16le (w.getD (10 + n) 0) (w.getD (11 + n) 0) = crc16 ((w.drop 2).take (8 + n)) ∧
    crc16 (w.drop 2) = 0x0000) ∧
  (∀ f g : Frame, f.Valid → g.Valid → encodeFrame f = encodeFrame g → f = g)

/-! ### The five frames -/

/-- R56, R57 to R61, R70: a frame of each named type is received as DEC.FEED receives its wire bytes, which
start with the type's pattern. That a table frame is executed as its reception is the model's reading (log
entry 8). -/
def Obligations.FrameIsFeedOfItsWireBytes : Prop :=
  ∀ (b : FrameBody) (s : State),
    let rest := [lo8 b.messageId, hi8 b.messageId, lo8 b.sequence, hi8 b.sequence, lo8 b.payloadLength,
      hi8 b.payloadLength] ++ b.payload ++ [lo8 b.crc, hi8 b.crc]
    exec (.frameAlive b) s = exec (.decFeed ([0xA5#8, 0x5A#8, b.version, 0x01] ++ rest)) s ∧
    exec (.frameCommand b) s = exec (.decFeed ([0xA5#8, 0x5A#8, b.version, 0x02] ++ rest)) s ∧
    exec (.frameResponse b) s = exec (.decFeed ([0xA5#8, 0x5A#8, b.version, 0x03] ++ rest)) s ∧
    exec (.frameTelemetry b) s = exec (.decFeed ([0xA5#8, 0x5A#8, b.version, 0x04] ++ rest)) s ∧
    exec (.frameEvent b) s = exec (.decFeed ([0xA5#8, 0x5A#8, b.version, 0x05] ++ rest)) s

/-- R57 to R61, R97: between frames, a well-formed frame of each named type completes: it comes out as a Frame of
its type when its CRC field is right, and as one CrcMismatch when it is not. -/
def Obligations.NamedFrameIsReceived : Prop :=
  ∀ (y : FrameType) (b : FrameBody) (s : State), b.WellFormed → s.Inv → s.dec.Searching →
    let computed := crc16 ((b.header y).bytes.toList ++ b.payload)
    ∃ t, exec (.frame y b) s = .next t ∧ t.dec.Cleared ∧ t.crcAcc = s.crcAcc ∧ t.inputs = s.inputs ∧
      t.outcomes = s.outcomes ++
        [.events [if computed = b.crc then .frame ⟨b.header y, b.payload⟩ else .err .crcMismatch computed]]
end

