-- ==== Sys2Proof/Laws/Params.lean ====
section
/-! SUPPORT. The parameter values as rewriting lemmas, and the byte helpers' inverse laws. -/

namespace Sys2Proof.Machine

@[simp] theorem config_sof1 : config.sof1 = 0xA5#8 := rfl
@[simp] theorem config_sof2 : config.sof2 = 0x5A#8 := rfl
@[simp] theorem config_crcInit : config.crcInit = 0xFFFF#16 := rfl
@[simp] theorem config_crcPoly : config.crcPoly = 0xA001#16 := rfl
@[simp] theorem config_maxPayload : config.maxPayload = 4096#16 := rfl

@[simp] theorem typeCode_alive : typeCode .alive = 1#8 := rfl
@[simp] theorem typeCode_command : typeCode .command = 2#8 := rfl
@[simp] theorem typeCode_response : typeCode .response = 3#8 := rfl
@[simp] theorem typeCode_telemetry : typeCode .telemetry = 4#8 := rfl
@[simp] theorem typeCode_event : typeCode .event = 5#8 := rfl

/-- The values of R4 keep the constraint D20 puts on any configuration. -/
theorem config_legal : config.Legal := by decide

/-- The bits of an assembled word: eight of the low byte, then those of the high byte. -/
theorem getLsbD_u16le (a b : Byte) (i : Nat) :
    (u16le a b).getLsbD i = if i < 8 then a.getLsbD i else b.getLsbD (i - 8) :=
  BitVec.getLsbD_append

@[simp] theorem lo8_u16le (a b : Byte) : lo8 (u16le a b) = a := by
  apply BitVec.eq_of_getLsbD_eq
  intro i hi
  simp only [lo8, BitVec.getLsbD_extractLsb', getLsbD_u16le]
  simp [hi]

@[simp] theorem hi8_u16le (a b : Byte) : hi8 (u16le a b) = b := by
  apply BitVec.eq_of_getLsbD_eq
  intro i hi
  simp only [hi8, BitVec.getLsbD_extractLsb', getLsbD_u16le]
  simp [hi]

@[simp] theorem u16le_lo8_hi8 (v : Word) : u16le (lo8 v) (hi8 v) = v := by
  apply BitVec.eq_of_getLsbD_eq
  intro i hi
  simp only [getLsbD_u16le, lo8, hi8, BitVec.getLsbD_extractLsb']
  split
  · simp [*]
  · have h1 : i - 8 < 8 := by omega
    have h2 : 8 + (i - 8) = i := by omega
    simp [h1, h2]

end Sys2Proof.Machine
end

