-- ==== Sys2Proof/Laws/Crc.lean ====
section
/-! SUPPORT. The CRC function's equations over its sequence. -/

namespace Sys2Proof.Machine

@[simp] theorem crcFrom_nil (c : Word) : crcFrom c [] = c := rfl

@[simp] theorem crcFrom_cons (c : Word) (d : Byte) (bs : List Byte) :
    crcFrom c (d :: bs) = crcFrom (crcByte c d) bs := rfl

@[simp] theorem crcFrom_append (c : Word) (a b : List Byte) :
    crcFrom c (a ++ b) = crcFrom (crcFrom c a) b := List.foldl_append

theorem crc16_eq (bs : List Byte) : crc16 bs = crcFrom 0xFFFF#16 bs := rfl

theorem crcShifts_succ (n : Nat) (c : Word) : crcShifts (n + 1) c = crcShifts n (crcShift c) := rfl

end Sys2Proof.Machine
end

