-- ==== Sys2Proof/Laws/Memory.lean ====
section
/-! SUPPORT. The laws of the payload buffer: read after write, writes elsewhere, and the canonical form. -/

namespace Sys2Proof.Machine

/-- A canonical buffer from `lo` on reads as unlisted below `lo`. -/
theorem Memory.read_below {m : Memory} {lo a : Nat} (hm : Memory.wfFrom lo m = true) (ha : a < lo) :
    m.read a = Memory.unlisted := by
  induction m generalizing lo with
  | nil => rfl
  | cons c m ih =>
    simp only [Memory.wfFrom, Bool.and_eq_true, decide_eq_true_eq] at hm
    obtain ⟨⟨⟨h1, -⟩, -⟩, h4⟩ := hm
    have hne : c.1 ≠ a := by omega
    simp only [Memory.read, hne, if_false]
    exact ih h4 (by omega)

/-- Reading a cell after writing another gives what it gave before. -/
theorem Memory.read_write_other (m : Memory) {a x : Nat} (b : Byte) (h : x ≠ a) :
    (m.write a b).read x = m.read x := by
  induction m with
  | nil =>
    simp only [Memory.write]
    split <;> simp [Memory.read, h.symm]
  | cons c m ih =>
    simp only [Memory.write]
    split
    · split <;> simp [Memory.read, h.symm]
    · split
      · rename_i hc
        subst hc
        split <;> simp [Memory.read, h.symm]
      · simp only [Memory.read, ih]

theorem Memory.read_write_same_from {m : Memory} {lo a : Nat} (b : Byte) (hm : Memory.wfFrom lo m = true) :
    (m.write a b).read a = b := by
  induction m generalizing lo with
  | nil =>
    simp only [Memory.write]
    split
    · rename_i hb
      simp [Memory.read, hb]
    · simp [Memory.read]
  | cons c m ih =>
    simp only [Memory.wfFrom, Bool.and_eq_true, decide_eq_true_eq] at hm
    obtain ⟨⟨⟨h1, h2⟩, h3⟩, h4⟩ := hm
    simp only [Memory.write]
    split
    · rename_i hlt
      have hne : c.1 ≠ a := by omega
      split
      · rename_i hb
        rw [hb]
        simp only [Memory.read, hne, if_false]
        exact Memory.read_below h4 (by omega)
      · simp [Memory.read]
    · split
      · rename_i hc
        subst hc
        split
        · rename_i hb
          rw [hb]
          exact Memory.read_below h4 (by omega)
        · simp [Memory.read]
      · have hne : c.1 ≠ a := by omega
        simp only [Memory.read, hne, if_false]
        exact ih h4

/-- Reading a cell just written gives the byte written. -/
theorem Memory.read_write_same {m : Memory} (a : Nat) (b : Byte) (hm : m.wf = true) :
    (m.write a b).read a = b :=
  Memory.read_write_same_from b hm

theorem Memory.wfFrom_mono {m : Memory} {lo lo' : Nat} (hm : Memory.wfFrom lo m = true) (h : lo' ≤ lo) :
    Memory.wfFrom lo' m = true := by
  match m, hm with
  | [], _ => rfl
  | c :: m, hm =>
    simp only [Memory.wfFrom, Bool.and_eq_true, decide_eq_true_eq] at hm ⊢
    exact ⟨⟨⟨by omega, hm.1.1.2⟩, hm.1.2⟩, hm.2⟩

theorem Memory.wfFrom_write {m : Memory} {lo a : Nat} (b : Byte) (hm : Memory.wfFrom lo m = true)
    (ha : a < payloadCells) (hlo : lo ≤ a) : Memory.wfFrom lo (m.write a b) = true := by
  induction m generalizing lo with
  | nil =>
    simp only [Memory.write]
    split
    · rfl
    · simp [Memory.wfFrom, *]
  | cons c m ih =>
    have hm' := hm
    simp only [Memory.wfFrom, Bool.and_eq_true, decide_eq_true_eq] at hm
    obtain ⟨⟨⟨h1, h2⟩, h3⟩, h4⟩ := hm
    simp only [Memory.write]
    split
    · split
      · exact hm'
      · rename_i hlt hb
        simp only [Memory.wfFrom, Bool.and_eq_true, decide_eq_true_eq]
        exact ⟨⟨⟨hlo, ha⟩, hb⟩, ⟨⟨⟨hlt, h2⟩, h3⟩, h4⟩⟩
    · split
      · rename_i hc
        split
        · exact Memory.wfFrom_mono h4 (by omega)
        · rename_i hb
          simp only [Memory.wfFrom, Bool.and_eq_true, decide_eq_true_eq]
          exact ⟨⟨⟨hlo, ha⟩, hb⟩, hc ▸ h4⟩
      · simp only [Memory.wfFrom, Bool.and_eq_true, decide_eq_true_eq]
        exact ⟨⟨⟨h1, h2⟩, h3⟩, ih h4 (by omega)⟩

/-- A write inside the buffer keeps the canonical form. -/
theorem Memory.wf_write {m : Memory} {a : Nat} (b : Byte) (hm : m.wf = true) (ha : a < payloadCells) :
    (m.write a b).wf = true :=
  Memory.wfFrom_write b hm ha (Nat.zero_le a)

/-- Everything `memWrite` can do. -/
theorem memWrite_some {m m' : Memory} {a : Nat} {b : Byte} :
    memWrite m a b = some m' ↔ a < payloadCells ∧ m' = m.write a b := by
  simp only [memWrite]
  split <;> simp [*, eq_comm]

/-- Everything `memRead` can do. -/
theorem memRead_some {m : Memory} {n : Nat} {p : List Byte} :
    memRead m n = some p ↔ n ≤ payloadCells ∧ p = (List.range n).map m.read := by
  simp only [memRead]
  split <;> simp [*, eq_comm]

/-- The payload buffer after a hardware reset has its canonical form. -/
theorem reset_pbuf_wf : State.reset.dec.pbuf.wf = true := rfl

end Sys2Proof.Machine
end

