-- ==== Sys2Proof/Laws/State.lean ====
section
/-! SUPPORT. One lemma for each field of the state under each named update, so that no proof unfolds one. -/

namespace Sys2Proof.Machine

@[simp] theorem respond_dec (s : State) (r : Response) : (s.respond r).dec = s.dec := rfl
@[simp] theorem respond_crcAcc (s : State) (r : Response) : (s.respond r).crcAcc = s.crcAcc := rfl
@[simp] theorem respond_inputs (s : State) (r : Response) : (s.respond r).inputs = s.inputs := rfl
@[simp] theorem respond_outcomes (s : State) (r : Response) : (s.respond r).outcomes = s.outcomes ++ [r] := rfl

@[simp] theorem setDec_dec (s : State) (ds : DecState) : (s.setDec ds).dec = ds := rfl
@[simp] theorem setDec_crcAcc (s : State) (ds : DecState) : (s.setDec ds).crcAcc = s.crcAcc := rfl
@[simp] theorem setDec_inputs (s : State) (ds : DecState) : (s.setDec ds).inputs = s.inputs := rfl
@[simp] theorem setDec_outcomes (s : State) (ds : DecState) : (s.setDec ds).outcomes = s.outcomes := rfl

@[simp] theorem setCrcAcc_dec (s : State) (c : Word) : (s.setCrcAcc c).dec = s.dec := rfl
@[simp] theorem setCrcAcc_crcAcc (s : State) (c : Word) : (s.setCrcAcc c).crcAcc = c := rfl
@[simp] theorem setCrcAcc_inputs (s : State) (c : Word) : (s.setCrcAcc c).inputs = s.inputs := rfl
@[simp] theorem setCrcAcc_outcomes (s : State) (c : Word) : (s.setCrcAcc c).outcomes = s.outcomes := rfl

@[simp] theorem setInputs_dec (s : State) (is : List Input) : (s.setInputs is).dec = s.dec := rfl
@[simp] theorem setInputs_crcAcc (s : State) (is : List Input) : (s.setInputs is).crcAcc = s.crcAcc := rfl
@[simp] theorem setInputs_inputs (s : State) (is : List Input) : (s.setInputs is).inputs = is := rfl
@[simp] theorem setInputs_outcomes (s : State) (is : List Input) : (s.setInputs is).outcomes = s.outcomes := rfl

@[simp] theorem decClear_ps (ds : DecState) : (decClear ds).ps = .seekSof1 := rfl
@[simp] theorem decClear_hbuf (ds : DecState) : (decClear ds).hbuf = ds.hbuf := rfl
@[simp] theorem decClear_hcnt (ds : DecState) : (decClear ds).hcnt = 0 := rfl
@[simp] theorem decClear_pbuf (ds : DecState) : (decClear ds).pbuf = ds.pbuf := rfl
@[simp] theorem decClear_pcnt (ds : DecState) : (decClear ds).pcnt = 0 := rfl
@[simp] theorem decClear_cbuf (ds : DecState) : (decClear ds).cbuf = ds.cbuf := rfl
@[simp] theorem decClear_ccnt (ds : DecState) : (decClear ds).ccnt = 0 := rfl
@[simp] theorem decClear_hdr (ds : DecState) : (decClear ds).hdr = ds.hdr := rfl

@[simp] theorem hardwareReset_dec (s : State) : (hardwareReset s).dec = decClear s.dec := rfl
@[simp] theorem hardwareReset_crcAcc (s : State) : (hardwareReset s).crcAcc = config.crcInit := rfl
@[simp] theorem hardwareReset_inputs (s : State) : (hardwareReset s).inputs = s.inputs := rfl
@[simp] theorem hardwareReset_outcomes (s : State) :
    (hardwareReset s).outcomes = s.outcomes ++ [.nothing] := rfl

@[simp] theorem offerNext_inputs (s : State) (i : Input) : (offerNext s i).inputs = i :: s.inputs := rfl
@[simp] theorem offerNext_dec (s : State) (i : Input) : (offerNext s i).dec = s.dec := rfl
@[simp] theorem offerNext_crcAcc (s : State) (i : Input) : (offerNext s i).crcAcc = s.crcAcc := rfl
@[simp] theorem offerNext_outcomes (s : State) (i : Input) : (offerNext s i).outcomes = s.outcomes := rfl

@[simp] theorem finishDec_ok {α : Type} (s : State) (ds : DecState) (a : α) (k : α → Response) :
    s.finishDec (.ok (ds, a)) k = .next ((s.setDec ds).respond (k a)) := rfl
@[simp] theorem finishDec_error {α : Type} (s : State) (f : Fault) (k : α → Response) :
    s.finishDec (.error f) k = .fault f := rfl

/-- Everything `finishDec` can do when it answers a next state. -/
theorem finishDec_next {α : Type} {s t : State} {r : Except Fault (DecState × α)} {k : α → Response}
    (h : s.finishDec r k = .next t) : ∃ ds a, r = .ok (ds, a) ∧ t = (s.setDec ds).respond (k a) := by
  match r, h with
  | .ok (ds, a), h => exact ⟨ds, a, rfl, (Host.Outcome.next.inj h).symm⟩

end Sys2Proof.Machine
end

