-- ==== Sys2Proof/Laws/Decoder.lean ====
section
/-! SUPPORT. What the decoder's shared operations can do, said once: the register arrays, the end of a header
and of a frame, one byte in each parse state, and a chunk. -/

namespace Sys2Proof.Machine

/-- Everything `setHeaderByte` can do: cell `i` below 8 is replaced, any other index has no cell. -/
theorem setHeaderByte_some {h h' : HeaderBytes} {i : Nat} {d : Byte} :
    setHeaderByte h i d = some h' ↔ i < 8 ∧ h'.toList = h.toList.set i d := by
  obtain ⟨a0, a1, a2, a3, a4, a5, a6, a7⟩ := h
  obtain ⟨c0, c1, c2, c3, c4, c5, c6, c7⟩ := h'
  match i with
  | 0 | 1 | 2 | 3 | 4 | 5 | 6 | 7 => simp [setHeaderByte, HeaderBytes.toList, eq_comm]
  | n + 8 => simp [setHeaderByte]

/-- Everything `setCrcByte` can do. -/
theorem setCrcByte_some {c c' : CrcBytes} {i : Nat} {d : Byte} :
    setCrcByte c i d = some c' ↔ i < 2 ∧ [c'.b0, c'.b1] = [c.b0, c.b1].set i d := by
  obtain ⟨a0, a1⟩ := c
  obtain ⟨c0, c1⟩ := c'
  match i with
  | 0 | 1 => simp [setCrcByte, eq_comm]
  | n + 2 => simp [setCrcByte]

/-- Everything the end of a header can do (R95). -/
theorem headerComplete_cases (ds : DecState) :
    (4096#16 < ds.hbuf.parse.payloadLength ∧ headerComplete ds =
      (decClear { ds with hdr := ds.hbuf.parse }, some (.err .frameTooLarge ds.hbuf.parse.payloadLength))) ∨
    (ds.hbuf.parse.payloadLength = 0 ∧
      headerComplete ds = ({ ds with hdr := ds.hbuf.parse, ps := .readCrc, ccnt := 0, pcnt := 0 }, none)) ∨
    (ds.hbuf.parse.payloadLength ≤ 4096#16 ∧ ds.hbuf.parse.payloadLength ≠ 0 ∧
      headerComplete ds = ({ ds with hdr := ds.hbuf.parse, ps := .readPayload, pcnt := 0 }, none)) := by
  simp only [headerComplete, raiseError]
  split
  · exact .inl ⟨by assumption, rfl⟩
  · split
    · exact .inr (.inl ⟨by assumption, rfl⟩)
    · exact .inr (.inr ⟨BitVec.not_lt.mp (by assumption), by assumption, rfl⟩)

/-- Everything the end of a frame can do (R97). -/
theorem crcComplete_ok {ds ds' : DecState} {o : Option Event} (h : crcComplete ds = .ok (ds', o)) :
    ds' = decClear ds ∧ ds.hdr.payloadLength.toNat ≤ payloadCells ∧
    let p := (List.range ds.hdr.payloadLength.toNat).map ds.pbuf.read
    let computed := crc16 (ds.hbuf.toList ++ p)
    o = some (if computed = u16le ds.cbuf.b0 ds.cbuf.b1 then .frame ⟨ds.hdr, p⟩
      else .err .crcMismatch computed) := by
  simp only [crcComplete] at h
  split at h
  · cases h
  · rename_i p hp
    obtain ⟨hn, rfl⟩ := memRead_some.mp hp
    split at h <;> cases h <;> simp [*]

/-- Everything one byte can do, parse state by parse state (R93 to R97). -/
theorem decByte_ok {ds ds' : DecState} {d : Byte} {o : Option Event} (h : decByte ds d = .ok (ds', o)) :
    (ds.ps = .seekSof1 ∧ o = none ∧ ds' = { ds with ps := if d = 0xA5#8 then .seekSof2 else .seekSof1 }) ∨
    (ds.ps = .seekSof2 ∧ o = none ∧
      ds' = if d = 0x5A#8 then { ds with ps := .readHeader, hcnt := 0 }
        else { ds with ps := if d = 0xA5#8 then .seekSof2 else .seekSof1 }) ∨
    (∃ hb, ds.ps = .readHeader ∧ setHeaderByte ds.hbuf ds.hcnt.toNat d = some hb ∧
      (((ds.hcnt + 1).toNat < 8 ∧ o = none ∧ ds' = { ds with hbuf := hb, hcnt := ds.hcnt + 1 }) ∨
        (¬ (ds.hcnt + 1).toNat < 8 ∧
          (ds', o) = headerComplete { ds with hbuf := hb, hcnt := ds.hcnt + 1 }))) ∨
    (ds.ps = .readPayload ∧ ds.pcnt.toNat < payloadCells ∧ o = none ∧
      let ds1 := { ds with pbuf := ds.pbuf.write ds.pcnt.toNat d, pcnt := ds.pcnt + 1 }
      ds' = if ds1.pcnt.toNat = ds1.hdr.payloadLength.toNat then { ds1 with ps := .readCrc, ccnt := 0 } else ds1) ∨
    (∃ cb, ds.ps = .readCrc ∧ setCrcByte ds.cbuf ds.ccnt.toNat d = some cb ∧
      (((ds.ccnt + 1).toNat < 2 ∧ o = none ∧ ds' = { ds with cbuf := cb, ccnt := ds.ccnt + 1 }) ∨
        (¬ (ds.ccnt + 1).toNat < 2 ∧
          crcComplete { ds with cbuf := cb, ccnt := ds.ccnt + 1 } = .ok (ds', o)))) := by
  unfold decByte at h
  cases hps : ds.ps <;> simp only [hps] at h
  case seekSof1 =>
    left
    simp only [seekSof1Byte] at h
    by_cases hd : d = 0xA5#8
    · rw [if_pos hd] at h; cases h; simp [hd]
    · rw [if_neg hd] at h; cases h; simp [hd]
  case seekSof2 =>
    right; left
    simp only [seekSof2Byte] at h
    by_cases hd : d = 0x5A#8
    · rw [if_pos hd] at h; cases h; simp [hd]
    · rw [if_neg hd] at h
      by_cases hd' : d = 0xA5#8
      · rw [if_pos hd'] at h; cases h; simp [hd']
      · rw [if_neg hd'] at h; cases h; simp [hd, hd']
  case readHeader =>
    right; right; left
    simp only [readHeaderByte, hdrLen] at h
    cases hset : setHeaderByte ds.hbuf ds.hcnt.toNat d <;> rw [hset] at h
    case none => cases h
    case some hb =>
      dsimp only at h
      refine ⟨hb, rfl, rfl, ?_⟩
      by_cases hlt : (ds.hcnt + 1).toNat < 8
      · rw [if_pos hlt] at h; cases h; exact .inl ⟨hlt, rfl, by rw [hps]⟩
      · rw [if_neg hlt, hps] at h; exact .inr ⟨hlt, (Except.ok.inj h).symm⟩
  case readPayload =>
    right; right; right; left
    simp only [readPayloadByte] at h
    cases hm : memWrite ds.pbuf ds.pcnt.toNat d <;> rw [hm] at h
    case none => cases h
    case some m =>
      dsimp only at h
      obtain ⟨hlt, rfl⟩ := memWrite_some.mp hm
      by_cases he : (ds.pcnt + 1).toNat = ds.hdr.payloadLength.toNat
      · rw [if_pos he] at h; cases h; exact ⟨rfl, hlt, rfl, (if_pos he).symm⟩
      · rw [if_neg he] at h; cases h; rw [hps]; exact ⟨rfl, hlt, rfl, (if_neg he).symm⟩
  case readCrc =>
    right; right; right; right
    simp only [readCrcByte, crcLen] at h
    cases hset : setCrcByte ds.cbuf ds.ccnt.toNat d <;> rw [hset] at h
    case none => cases h
    case some cb =>
      dsimp only at h
      refine ⟨cb, rfl, rfl, ?_⟩
      by_cases hlt : (ds.ccnt + 1).toNat < 2
      · rw [if_pos hlt] at h; cases h; exact .inl ⟨hlt, rfl, by rw [hps]⟩
      · rw [if_neg hlt, hps] at h; exact .inr ⟨hlt, h⟩

@[simp] theorem feedBytes_nil (ds : DecState) : feedBytes ds [] = .ok (ds, []) := rfl

/-- A chunk that completes: its first byte, then the rest (R100). -/
theorem feedBytes_cons {ds ds1 ds2 : DecState} {d : Byte} {bs : List Byte} {o : Option Event} {es : List Event}
    (h1 : decByte ds d = .ok (ds1, o)) (h2 : feedBytes ds1 bs = .ok (ds2, es)) :
    feedBytes ds (d :: bs) = .ok (ds2, o.toList ++ es) := by
  simp only [feedBytes, h1, h2]

/-- Everything a chunk of at least one byte can do when it completes. -/
theorem feedBytes_cons_ok {ds ds2 : DecState} {d : Byte} {bs : List Byte} {es : List Event}
    (h : feedBytes ds (d :: bs) = .ok (ds2, es)) :
    ∃ ds1 o es1, decByte ds d = .ok (ds1, o) ∧ feedBytes ds1 bs = .ok (ds2, es1) ∧ es = o.toList ++ es1 := by
  simp only [feedBytes] at h
  split at h
  · cases h
  · rename_i ds1 o h1
    split at h
    · cases h
    · rename_i ds2' es1 h2
      cases h
      exact ⟨ds1, o, es1, h1, h2, rfl⟩

end Sys2Proof.Machine
end

