-- ==== Sys2Proof/Laws/Exec.lean ====
section
/-! SUPPORT. One equation for each instruction's meaning over the shared operations, and what `exec` can do
when it answers a next state. -/

namespace Sys2Proof.Machine

theorem exec_crcInit (s : State) :
    exec .crcInit s = .next ((s.setCrcAcc config.crcInit).respond .nothing) := rfl

theorem exec_crcByte (d : Byte) (s : State) :
    exec (.crcByte d) s = .next ((s.setCrcAcc (crcByte s.crcAcc d)).respond (.crcOut (crcByte s.crcAcc d))) := rfl

theorem exec_crcCompute (bs : List Byte) (s : State) :
    exec (.crcCompute bs) s = .next ((s.setCrcAcc (crc16 bs)).respond (.crcOut (crc16 bs))) := rfl

theorem exec_decReset (s : State) :
    exec .decReset s = .next ((s.setDec (decClear s.dec)).respond (.stepOutcome none)) := rfl

theorem exec_decByte (d : Byte) (s : State) :
    exec (.decByte d) s = s.finishDec (decByte s.dec d) .stepOutcome := rfl

theorem exec_decFeed (bs : List Byte) (s : State) :
    exec (.decFeed bs) s = s.finishDec (feedBytes s.dec bs) .events := rfl

theorem exec_encEncode (f : Frame) (s : State) :
    exec (.encEncode f) s =
      if f.Valid then .next (s.respond (.txBytes (encodeFrame f))) else .refused .invalidFrame := rfl

theorem exec_frame (y : FrameType) (b : FrameBody) (s : State) :
    exec (.frame y b) s = s.finishDec (feedBytes s.dec (b.wire y)) .events := by
  cases y <;> rfl

end Sys2Proof.Machine
end

