-- ==== Sys2Proof/Laws/PerInstr.lean ====
section
/-! SUPPORT. For every instruction: the line the encoder writes for it selects the table row of its own
mnemonic and no other (R67, R71). One lemma per constructor. -/

namespace Sys2Proof.Laws.SelectsRow

/-- The row of spec/opcode_table.json that a well-formed instruction's encoding selects is its own. -/
def Statement (i : Instr) : Prop := i.WellFormed → rowMnemonic (encode i) = some i.mnemonic

theorem crcInit : Statement .crcInit := fun _ => rfl

theorem crcByte (d : Byte) : Statement (.crcByte d) := fun _ => rfl

theorem crcCompute (bs : List Byte) : Statement (.crcCompute bs) := fun _ => rfl

theorem decReset : Statement .decReset := fun _ => rfl

theorem decByte (d : Byte) : Statement (.decByte d) := fun _ => rfl

theorem decFeed (bs : List Byte) : Statement (.decFeed bs) := fun _ => rfl

theorem encEncode (f : Frame) : Statement (.encEncode f) := fun _ => rfl

/-- A named frame's wire bytes select the row of its type: the type byte tells the five rows apart. -/
theorem frameTypeOf_wire (t : FrameType) (b : FrameBody) : frameTypeOf (b.wire t) = some t := by
  cases t <;>
    simp [frameTypeOf, frameRows, frameRow, FrameRow.selectedBy, matchBytes, FrameBody.wire, FrameBody.header,
      FrameHeader.bytes, HeaderBytes.toList, Machine.typeCode]

theorem frameAlive (b : FrameBody) : Statement (.frameAlive b) := fun _ => by
  simp only [encode, rowMnemonic, frameTypeOf_wire, Instr.mnemonic]

theorem frameCommand (b : FrameBody) : Statement (.frameCommand b) := fun _ => by
  simp only [encode, rowMnemonic, frameTypeOf_wire, Instr.mnemonic]

theorem frameResponse (b : FrameBody) : Statement (.frameResponse b) := fun _ => by
  simp only [encode, rowMnemonic, frameTypeOf_wire, Instr.mnemonic]

theorem frameTelemetry (b : FrameBody) : Statement (.frameTelemetry b) := fun _ => by
  simp only [encode, rowMnemonic, frameTypeOf_wire, Instr.mnemonic]

theorem frameEvent (b : FrameBody) : Statement (.frameEvent b) := fun _ => by
  simp only [encode, rowMnemonic, frameTypeOf_wire, Instr.mnemonic]

end Sys2Proof.Laws.SelectsRow
end

