-- ==== Sys2Proof/Tests/Slice0.lean ====
section
/-! SUPPORT. The model's own tests. Expected results come from the vectors and programs of
spec/95_test_vectors.md (V<n>, S<n>, programs A to E) and from the encodings of spec/30_encoding.md; each theorem
`test_witness_<Name>` shows values that meet the hypotheses of `Obligations.<Name>`. -/

namespace Sys2Proof.Tests

-- one theorem after another: checked at once, the kernel evaluations below hold a thread and its stack each
set_option Elab.async false

open Sys2Proof Sys2Proof.Machine

/-! ### Helpers -/

/-- The next state of an outcome, if it has one. -/
def nextOf : Host.Outcome State Fault Refusal → Option State
  | .next t => some t
  | .fault _ => none
  | .refused _ => none

/-- The refusal of an outcome, if it is one. -/
def refusedOf : Host.Outcome State Fault Refusal → Option Refusal
  | .refused r => some r
  | .next _ => none
  | .fault _ => none

/-- The fault of an outcome, if it is one. -/
def faultOf : Host.Outcome State Fault Refusal → Option Fault
  | .fault x => some x
  | .next _ => none
  | .refused _ => none

/-- The state after an instruction that completes. -/
def after (i : Instr) (s : State) : State := (nextOf (exec i s)).getD s

theorem next_after {i : Instr} {s : State} (h : (nextOf (exec i s)).isSome = true) :
    exec i s = .next (after i s) := by
  unfold after
  generalize exec i s = o at h ⊢
  cases o <;> simp_all [nextOf]

/-- What the host receives last. -/
def answer (i : Instr) (s : State) : Option Response := (after i s).outcomes.getLast?

/-- A decoder state as the vectors write it, `ps hcnt/pcnt/ccnt`, holding a Command header of payload length `len`. -/
def at_ (ps : ParseState) (hcnt : BitVec 4) (pcnt : BitVec 13) (ccnt : BitVec 2) (len : Word) : State :=
  let h : FrameHeader := ⟨0x01, 0x02, 0x0001, 0x0001, len⟩
  { State.reset with
    dec := { DecState.reset with ps := ps, hcnt := hcnt, pcnt := pcnt, ccnt := ccnt, hbuf := h.bytes, hdr := h } }

/-- The decoder's position, as the vectors write it. -/
def position (s : State) : ParseState × Nat × Nat × Nat :=
  (s.dec.ps, s.dec.hcnt.toNat, s.dec.pcnt.toNat, s.dec.ccnt.toNat)

/-- A machine whose host offers one input. -/
def offering (i : Input) : State := { State.reset with inputs := [i] }

/-- The frame of V10. -/
def frame10 : Frame := ⟨⟨0x01, 0x01, 0x0000, 0x0000, 0x0000⟩, []⟩
/-- The bytes of V10. -/
def bytes10 : List Byte := [0xA5, 0x5A, 0x01, 0x01, 0x00, 0x00, 0x00, 0x00, 0x00, 0x00, 0x91, 0x07]
/-- The frame of V11. -/
def frame11 : Frame := ⟨⟨0x01, 0x02, 0x0001, 0x0001, 0x0003⟩, [0x10, 0x20, 0x30]⟩
/-- The bytes of V11, but for the last. -/
def bytes11 : List Byte := [0xA5, 0x5A, 0x01, 0x02, 0x01, 0x00, 0x01, 0x00, 0x03, 0x00, 0x10, 0x20, 0x30, 0xE2]
/-- A frame of the largest payload. -/
def frameMax : Frame := ⟨⟨0x01, 0x04, 0x0000, 0x0009, 0x1000⟩, List.replicate 4096 0x55⟩
/-- The body of V10 as a frame instruction. -/
def body10 : FrameBody := ⟨0x01, 0x0000, 0x0000, 0x0000, [], 0x0791⟩
/-- The body of V11 as a frame instruction. -/
def body11 : FrameBody := ⟨0x01, 0x0001, 0x0001, 0x0003, [0x10, 0x20, 0x30], 0x93E2⟩

/-! ### Well-formedness: a term each check refuses -/

/-- R53: a payload shorter than the header announces. -/
theorem test_illFormed_payload_short : (Instr.frameCommand { body11 with payload := [0x10] }).wellFormed = false := by
  decide

/-- R53: a payload where the header announces none. -/
theorem test_illFormed_payload_long : (Instr.frameAlive { body10 with payload := [0x10] }).wellFormed = false := by
  decide

/-- R64: a length above 4096, with a payload of that length. -/
theorem test_illFormed_length : (Instr.frameTelemetry
    ⟨0x01, 0, 0, 0x1001, List.replicate 4097 0, 0⟩).wellFormed = false := by
  decide +kernel

/-- R64: 4096 is legal. -/
theorem test_wellFormed_largest : (Instr.frameEvent
    ⟨0x01, 0, 0, 0x1000, List.replicate 4096 0, 0⟩).wellFormed = true := by
  decide +kernel

/-! ### Decoding: words written out from the spec's encodings -/

/-- R67, R69: the command rows. -/
theorem test_decode_commands :
    decode (.command 0b0000 []) = .ok .crcInit ∧ decode (.command 0b0001 [0xA5]) = .ok (.crcByte 0xA5) ∧
    decode (.command 0b0010 []) = .ok (.crcCompute []) ∧
    decode (.command 0b0010 [0x01, 0x02]) = .ok (.crcCompute [0x01, 0x02]) ∧
    decode (.command 0b0100 []) = .ok .decReset ∧ decode (.command 0b0101 [0x5A]) = .ok (.decByte 0x5A) ∧
    decode (.command 0b0110 [0xA5, 0x5A]) = .ok (.decFeed [0xA5, 0x5A]) := by
  refine ⟨?_, ?_, ?_, ?_, ?_, ?_, ?_⟩ <;> rfl

/-- Program A line 2: command 8, header `01 02 0001 0001 0003`, payload `10 20 30`. -/
theorem test_decode_encode : decode (.command 0b1000
    [0x01, 0x02, 0x00, 0x01, 0x00, 0x01, 0x00, 0x03, 0x10, 0x20, 0x30]) = .ok (.encEncode frame11) := rfl

/-- R57 (V10), R58 (V11), R59 (V12), R60 (V13), R61 (V14): a frame of each named type. -/
theorem test_decode_frames :
    decode (.receive bytes10) = .ok (.frameAlive body10) ∧
    decode (.receive (bytes11 ++ [0x93])) = .ok (.frameCommand body11) ∧
    decode (.receive [0xA5, 0x5A, 0x01, 0x03, 0x01, 0x00, 0x07, 0x00, 0x06, 0x00, 0x34, 0x12, 0x00, 0x00, 0x00, 0xAA,
      0x5E, 0x38]) = .ok (.frameResponse ⟨0x01, 0x0001, 0x0007, 0x0006, [0x34, 0x12, 0, 0, 0, 0xAA], 0x385E⟩) ∧
    decode (.receive [0xA5, 0x5A, 0x01, 0x04, 0x00, 0x00, 0x02, 0x01, 0x04, 0x00, 0xA5, 0x5A, 0xA5, 0x5A, 0xE5, 0xD8]) =
      .ok (.frameTelemetry ⟨0x01, 0x0000, 0x0102, 0x0004, [0xA5, 0x5A, 0xA5, 0x5A], 0xD8E5⟩) ∧
    decode (.receive [0xA5, 0x5A, 0x02, 0x05, 0x00, 0x00, 0xFF, 0xFF, 0x01, 0x00, 0xFF, 0xE6, 0x2F]) =
      .ok (.frameEvent ⟨0x02, 0x0000, 0xFFFF, 0x0001, [0xFF], 0x2FE6⟩) := by
  refine ⟨?_, ?_, ?_, ?_, ?_⟩ <;> rfl

/-- R62 (V15, V16), R54, R64: an unnamed type, a damaged SOF2 and an illegal length are no named frame; the bytes
are fed as they are. -/
theorem test_decode_other_chunks :
    (∀ t ∈ [0x00#8, 0x06#8, 0xFF#8],
      decode (.receive [0xA5, 0x5A, 0x01, t, 0, 0, 0, 0, 0, 0, 0, 0]) =
        .ok (.decFeed [0xA5, 0x5A, 0x01, t, 0, 0, 0, 0, 0, 0, 0, 0])) ∧
    decode (.receive [0xA5, 0x5B, 0x01, 0x01, 0, 0, 0, 0, 0, 0, 0x91, 0x07]) =
      .ok (.decFeed [0xA5, 0x5B, 0x01, 0x01, 0, 0, 0, 0, 0, 0, 0x91, 0x07]) ∧
    decode (.receive [0xA5, 0x5A, 0x01, 0x01, 0, 0, 0, 0, 0x01, 0x10]) =
      .ok (.decFeed [0xA5, 0x5A, 0x01, 0x01, 0, 0, 0, 0, 0x01, 0x10]) := by
  refine ⟨fun t ht => ?_, rfl, rfl⟩
  simp only [List.mem_cons, List.not_mem_nil, or_false] at ht
  rcases ht with rfl | rfl | rfl <;> rfl

/-- R68: the reserved codes. -/
theorem test_decode_reserved : ∀ cmd ∈ [0x3#4, 0x7#4, 0x9#4, 0xA#4, 0xB#4, 0xC#4, 0xD#4, 0xE#4, 0xF#4],
    operationOf cmd = none := by
  decide

/-- R71: the table's rows, as words of the table: a command code, and a frame's first ten bytes in either order. -/
theorem test_decode_table_words :
    decodeTableWord 8 0x0 = some .crcInit ∧ decodeTableWord 8 0x5 = some (.decByte 0) ∧
    decodeTableWord 8 0x8 = some (.encEncode ⟨⟨0, 0, 0, 0, 0⟩, []⟩) ∧ decodeTableWord 8 0x3 = none ∧
    decodeTableWord 80 0x00000000000003005AA5 = some (.frameResponse ⟨0, 0, 0, 0, [], 0⟩) ∧
    decodeTableWord 80 0xA55A0003000000000000 = some (.frameResponse ⟨0, 0, 0, 0, [], 0⟩) := by
  decide +kernel

/-- The word of a table row runs as the first instruction after reset. -/
theorem test_step_runs_table_word :
    (nextOf (step (State.reset.withFetchWord 8 0x0))).isSome = true ∧
    (nextOf (step (State.reset.withFetchWord 80 0x00000000000001005AA5))).isSome = true := by
  decide +kernel

/-! ### One step of each instruction -/

/-- R82, program D line 1. -/
theorem test_crcInit : (after .crcInit { State.reset with crcAcc := 0x1234 }).crcAcc = 0xFFFF := by decide

/-- V2, V7, V5. -/
theorem test_crcByte :
    (after (.crcByte 0x01) State.reset).crcAcc = 0x807E ∧
    answer (.crcByte 0x01) { State.reset with crcAcc := 0x807E } = some (.crcOut 0xE0C1) ∧
    crcByte 0x0000 0x01 = 0xC0C1 ∧ crcByte 0x0000 0x80 = 0xA001 ∧ crcByte 0xFFFF 0xFF = 0x00FF := by
  decide

/-- V1, V3, V4. -/
theorem test_crcCompute :
    answer (.crcCompute [0x31, 0x32, 0x33, 0x34, 0x35, 0x36, 0x37, 0x38, 0x39]) State.reset = some (.crcOut 0x4B37) ∧
    crc16 [0x01, 0x03, 0x00, 0x00, 0x00, 0x0A] = 0xCDC5 ∧ crc16 [0xA5, 0x5A] = 0xDBFA ∧
    crc16 [0x01, 0x02, 0x01, 0x00, 0x01, 0x00, 0x03, 0x00, 0x10, 0x20, 0x30] = 0x93E2 := by
  decide +kernel

/-- V31: DEC.RESET in mid-header. -/
theorem test_decReset : let s := at_ .readHeader 5 0 0 0
    position (after .decReset s) = (.seekSof1, 0, 0, 0) ∧ answer .decReset s = some (.stepOutcome none) := by
  decide

/-- V20: bytes 9 and 12, the ends of the header and of the payload. -/
theorem test_decByte_trace :
    position (after (.decByte 0x00) (at_ .readHeader 7 0 0 0x0003)) = (.readPayload, 8, 0, 0) ∧
    position (after (.decByte 0x30) (at_ .readPayload 8 2 0 0x0003)) = (.readCrc, 8, 3, 0) ∧
    position (after (.decByte 0xE2) (at_ .readCrc 8 3 0 0x0003)) = (.readCrc, 8, 3, 1) := by
  decide +kernel

/-- V24: lengths 5000, 4096, 4097 and 65535 on the eighth header byte. -/
theorem test_decByte_length :
    answer (.decByte 0x13) (at_ .readHeader 7 0 0 0x0088) = some (.stepOutcome (some (.err .frameTooLarge 5000))) ∧
    position (after (.decByte 0x10) (at_ .readHeader 7 0 0 0x0000)) = (.readPayload, 8, 0, 0) ∧
    answer (.decByte 0x10) (at_ .readHeader 7 0 0 0x0001) = some (.stepOutcome (some (.err .frameTooLarge 0x1001))) ∧
    answer (.decByte 0xFF) (at_ .readHeader 7 0 0 0x00FF) = some (.stepOutcome (some (.err .frameTooLarge 0xFFFF))) := by
  decide +kernel

/-- V23, S3: a corrupted payload byte, then a valid frame. -/
theorem test_decFeed_resync :
    answer (.decFeed ((bytes11 ++ [0x93]).set 11 0x21 ++ bytes10)) State.reset =
      some (.events [.err .crcMismatch 0x03E3, .frame frame10]) := by
  decide +kernel

/-- V25: a truncated frame swallows the next one. -/
theorem test_decFeed_truncated :
    answer (.decFeed (bytes11.take 12 ++ bytes10 ++
      [0xA5, 0x5A, 0x02, 0x05, 0x00, 0x00, 0xFF, 0xFF, 0x01, 0x00, 0xFF, 0xE6, 0x2F])) State.reset =
      some (.events [.err .crcMismatch 0xFC22, .frame ⟨⟨0x02, 0x05, 0x0000, 0xFFFF, 0x0001⟩, [0xFF]⟩]) := by
  decide +kernel

/-- V10, V11. -/
theorem test_encEncode :
    answer (.encEncode frame10) State.reset = some (.txBytes bytes10) ∧
    answer (.encEncode frame11) State.reset = some (.txBytes (bytes11 ++ [0x93])) := by
  decide +kernel

/-- V18, program E. -/
theorem test_encEncode_refused :
    refusedOf (exec (.encEncode ⟨⟨0x01, 0x02, 1, 1, 0x0004⟩, [0x10, 0x20, 0x30]⟩) State.reset) = some .invalidFrame ∧
    refusedOf (exec (.encEncode ⟨⟨0x01, 0x02, 1, 1, 0x0002⟩, [0x10, 0x20, 0x30]⟩) State.reset) = some .invalidFrame ∧
    refusedOf (exec (.encEncode ⟨⟨0x01, 0x04, 0, 0, 0x1001⟩, List.replicate 4097 0⟩) State.reset) =
      some .invalidFrame := by
  decide +kernel

/-- V21 without its noise, and V30: the CRC bytes in order and swapped. -/
theorem test_frameAlive :
    answer (.frameAlive body10) State.reset = some (.events [.frame frame10]) ∧
    answer (.frameAlive { body10 with crc := 0x9107 }) State.reset = some (.events [.err .crcMismatch 0x0791]) := by
  decide +kernel

/-- V20, and the false variant of program A. -/
theorem test_frameCommand :
    answer (.frameCommand body11) State.reset = some (.events [.frame frame11]) ∧
    answer (.frameCommand { body11 with crc := 0x92E2 }) State.reset = some (.events [.err .crcMismatch 0x93E2]) := by
  decide +kernel

/-- V22: the Response frame of V12. -/
theorem test_frameResponse :
    let h : FrameHeader := ⟨0x01, 0x03, 0x0001, 0x0007, 0x0006⟩
    let p : List Byte := [0x34, 0x12, 0x00, 0x00, 0x00, 0xAA]
    answer (.frameResponse ⟨0x01, 0x0001, 0x0007, 0x0006, p, 0x385E⟩) State.reset = some (.events [.frame ⟨h, p⟩]) := by
  decide +kernel

/-- V26: SOF bytes inside a payload. -/
theorem test_frameTelemetry :
    let h : FrameHeader := ⟨0x01, 0x04, 0x0000, 0x0102, 0x0004⟩
    let p : List Byte := [0xA5, 0x5A, 0xA5, 0x5A]
    answer (.frameTelemetry ⟨0x01, 0x0000, 0x0102, 0x0004, p, 0xD8E5⟩) State.reset = some (.events [.frame ⟨h, p⟩]) := by
  decide +kernel

/-- V24, V14: the Event frame. -/
theorem test_frameEvent :
    answer (.frameEvent ⟨0x02, 0x0000, 0xFFFF, 0x0001, [0xFF], 0x2FE6⟩) State.reset =
      some (.events [.frame ⟨⟨0x02, 0x05, 0x0000, 0xFFFF, 0x0001⟩, [0xFF]⟩]) := by
  decide +kernel

/-- R103: the proviso that the receiver is between frames; inside a frame the same bytes are data. -/
theorem test_frame_inside_frame :
    answer (.frameAlive body10) (at_ .readPayload 8 0 0 0x0100) = some (.events []) := by
  decide +kernel

/-! ### Witnesses: the hypotheses of every statement can be met -/

theorem test_witness_ReservedCodesRefused :
    operationOf 0x3 = none ∧ operationOf 0xF = none ∧ operationOf 0x2 ≠ none ∧
    (offering (.line (.command 0x3 [0x01]))).inputs = [.line (.command 0x3 [0x01])] ∧
    refusedOf (step (offering (.line (.command 0x3 [])))) = some (.reservedCommand 0x3) ∧
    refusedOf (step (offering (.line (.command 0xF [])))) = some (.reservedCommand 0xF) := by
  decide

theorem test_witness_WrongOperandCountRejected :
    ([0x01] : List Byte).length ≠ 0 ∧ ([] : List Byte).length ≠ 1 ∧ ([0x01, 0x02] : List Byte).length ≠ 1 ∧
    (List.replicate 7 (0 : Byte)).length < 8 ∧ ¬ (List.replicate 8 (0 : Byte)).length < 8 := by
  decide

theorem test_witness_TableRowsDisjoint :
    (⟨0xF, 0x5, .decByte⟩ : OpRow) ∈ opRows ∧ (⟨0xF, 0x5, .decByte⟩ : OpRow).selectedBy 0x5 = true ∧
    frameRow .event ∈ frameRows ∧ (frameRow .event).selectedBy [0xA5, 0x5A, 9, 5, 1, 1, 1, 1, 1, 1] = true := by
  decide

theorem test_witness_DecodeOfEncode :
    (Instr.decFeed [0xA5]).WellFormed ∧ (Instr.frameAlive body10).WellFormed ∧ (Instr.frameCommand body11).WellFormed ∧
    (Instr.frameEvent ⟨0, 0, 0, 0x1000, List.replicate 4096 0, 0⟩).WellFormed := by
  decide +kernel

theorem test_witness_EncodeOfDecode :
    decode (.command 0x1 [0x01]) = .ok (.crcByte 0x01) ∧ decode (.receive bytes10) = .ok (.frameAlive body10) ∧
    decode (.receive [0x00]) = .ok (.decFeed [0x00]) :=
  ⟨rfl, rfl, rfl⟩

theorem test_witness_StepRunsDecodedInstruction :
    decode (.command 0x0 []) = .ok .crcInit ∧
    (offering (.line (.command 0x0 []))).inputs = .line (.command 0x0 []) :: [] ∧
    decode (.command 0x7 []) = .error (.reservedCommand 0x7) ∧
    (offering (.line (.command 0x7 []))).inputs = .line (.command 0x7 []) :: [] ∧
    (offering .rst).inputs = .rst :: [] ∧ State.reset.inputs = [] :=
  ⟨rfl, rfl, rfl, rfl, rfl, rfl⟩

/-- A state one byte before the end of V11, the byte 0x93. -/
def almost : State := after (.decFeed bytes11) State.reset

theorem almost_position : position almost = (.readCrc, 8, 3, 1) ∧ almost.Inv := by decide +kernel

theorem almost_frame : exec (.decByte 0x93) almost = .next (after (.decByte 0x93) almost) ∧
    (after (.decByte 0x93) almost).outcomes = almost.outcomes ++ [.stepOutcome (some (.frame frame11))] :=
  ⟨next_after (by decide +kernel), by decide +kernel⟩

theorem almost_err : exec (.decByte 0x92) almost = .next (after (.decByte 0x92) almost) ∧
    (after (.decByte 0x92) almost).outcomes = almost.outcomes ++ [.stepOutcome (some (.err .crcMismatch 0x93E2))] :=
  ⟨next_after (by decide +kernel), by decide +kernel⟩

theorem test_witness_ResetsClearDecoder :
    (offering .rst).inputs = .rst :: [] ∧ exec (.decByte 0x93) almost = .next (after (.decByte 0x93) almost) ∧
    (after (.decByte 0x93) almost).outcomes = almost.outcomes ++ [.stepOutcome (some (.frame frame11))] :=
  ⟨rfl, almost_frame⟩

theorem test_witness_CrcDetectsOneChangedByte : (0x20 : Byte) ≠ 0x21 ∧
    crc16 ([0x10] ++ 0x20 :: [0x30]) ≠ crc16 ([0x10] ++ 0x21 :: [0x30]) := by
  decide +kernel

theorem test_witness_DecResetClears : State.reset.dec.Cleared ∧ ¬ almost.dec.Cleared := by decide +kernel

theorem test_witness_SeekSof1Step : State.reset.dec.ps = .seekSof1 ∧
    position (after (.decByte 0xA5) State.reset) = (.seekSof2, 0, 0, 0) ∧
    position (after (.decByte 0x5A) State.reset) = (.seekSof1, 0, 0, 0) := by
  decide

/-- V32: `A5` stays, `5A` starts a header, another byte goes back. -/
theorem test_witness_SeekSof2Step : (at_ .seekSof2 0 0 0 0).dec.ps = .seekSof2 ∧
    position (after (.decByte 0x5A) (at_ .seekSof2 0 0 0 0)) = (.readHeader, 0, 0, 0) ∧
    position (after (.decByte 0xA5) (at_ .seekSof2 0 0 0 0)) = (.seekSof2, 0, 0, 0) ∧
    position (after (.decByte 0x11) (at_ .seekSof2 0 0 0 0)) = (.seekSof1, 0, 0, 0) := by
  decide

/-- The eight bytes a header of length `len` has. -/
def headerOf (len : Word) : HeaderBytes := (⟨0x01, 0x02, 0x0001, 0x0001, len⟩ : FrameHeader).bytes

/-- The first byte, the seventh, and an eighth that makes the length 65535, 4097, 4096, 1 and 0. -/
theorem test_witness_ReadHeaderStep :
    (at_ .readHeader 0 0 0 0).dec.ps = .readHeader ∧ (at_ .readHeader 0 0 0 0).dec.hcnt.toNat < 7 ∧
    { headerOf 0 with b0 := 0x77 }.toList = (headerOf 0).toList.set 0 0x77 ∧
    (at_ .readHeader 6 0 0 0).dec.hcnt.toNat < 7 ∧ ¬ (at_ .readHeader 7 0 0 0).dec.hcnt.toNat < 7 ∧
    (headerOf 0xFFFF).toList = (headerOf 0x00FF).toList.set 7 0xFF ∧ 4096#16 < (headerOf 0xFFFF).parse.payloadLength ∧
    (headerOf 0x1001).toList = (headerOf 0x0001).toList.set 7 0x10 ∧ 4096#16 < (headerOf 0x1001).parse.payloadLength ∧
    (headerOf 0x1000).toList = (headerOf 0x0000).toList.set 7 0x10 ∧
    ¬ 4096#16 < (headerOf 0x1000).parse.payloadLength ∧ (headerOf 0x1000).parse.payloadLength ≠ 0 ∧
    (headerOf 0x0001).toList = (headerOf 0x0001).toList.set 7 0x00 ∧ (headerOf 0x0001).parse.payloadLength ≠ 0 ∧
    (headerOf 0x0000).parse.payloadLength = 0 := by
  decide

/-- The last byte of the largest payload, and one before the last. -/
theorem test_witness_ReadPayloadStep :
    (at_ .readPayload 8 4095 0 0x1000).Inv ∧ (at_ .readPayload 8 4095 0 0x1000).dec.ps = .readPayload ∧
    (at_ .readPayload 8 4095 0 0x1000).dec.pcnt.toNat + 1 =
      (at_ .readPayload 8 4095 0 0x1000).dec.hdr.payloadLength.toNat ∧
    (at_ .readPayload 8 4094 0 0x1000).Inv ∧
    (at_ .readPayload 8 4094 0 0x1000).dec.pcnt.toNat + 1 ≠
      (at_ .readPayload 8 4094 0 0x1000).dec.hdr.payloadLength.toNat ∧
    (at_ .readPayload 8 0 0 0x0001).Inv := by
  decide +kernel

theorem test_witness_ReadCrcStep :
    (at_ .readCrc 8 0 0 0).dec.ps = .readCrc ∧ (at_ .readCrc 8 0 0 0).dec.ccnt = 0 ∧
    (at_ .readCrc 8 0 0 0).dec.hdr.payloadLength ≤ 4096#16 ∧ (at_ .readCrc 8 0 0 0x1000).dec.hdr.payloadLength ≤ 4096#16 ∧
    almost.dec.ps = .readCrc ∧ almost.dec.ccnt = 1 ∧ almost.dec.hdr.payloadLength ≤ 4096#16 ∧
    answer (.decByte 0x93) almost = some (.stepOutcome (some (.frame frame11))) ∧
    answer (.decByte 0x92) almost = some (.stepOutcome (some (.err .crcMismatch 0x93E2))) := by
  decide +kernel

/-- A state of the invariant for each row of R98; the bytes that take each row are those of the tests above. -/
theorem test_witness_TransitionTable :
    State.reset.Inv ∧ (at_ .seekSof2 0 0 0 0).Inv ∧ (at_ .readHeader 0 0 0 0).Inv ∧ (at_ .readHeader 6 0 0 0).Inv ∧
    (at_ .readHeader 7 0 0 0).Inv ∧ (at_ .readHeader 7 0 0 0x00FF).Inv ∧ (at_ .readPayload 8 0 0 0x0001).Inv ∧
    (at_ .readPayload 8 1 0 0x0003).Inv ∧ (at_ .readCrc 8 0 0 0).Inv ∧ almost.Inv ∧
    (after (.decByte 0x00) (at_ .readHeader 7 0 0 0)).dec.ps = .readCrc ∧
    (after (.decByte 0x20) (at_ .readPayload 8 1 0 0x0003)).dec.ps = .readPayload := by
  decide +kernel

/-- An eighth header byte that announces 4097, and a second CRC byte that is wrong. -/
theorem test_witness_ErrorsExactlyWhen :
    (almost.Inv ∧ exec (.decByte 0x92) almost = .next (after (.decByte 0x92) almost) ∧
      (after (.decByte 0x92) almost).outcomes =
        almost.outcomes ++ [.stepOutcome (some (.err .crcMismatch 0x93E2))]) ∧
    ((at_ .readHeader 7 0 0 0x0001).Inv ∧ exec (.decByte 0x10) (at_ .readHeader 7 0 0 0x0001) =
      .next (after (.decByte 0x10) (at_ .readHeader 7 0 0 0x0001)) ∧
      (after (.decByte 0x10) (at_ .readHeader 7 0 0 0x0001)).outcomes =
        (at_ .readHeader 7 0 0 0x0001).outcomes ++ [.stepOutcome (some (.err .frameTooLarge 0x1001))]) :=
  ⟨⟨almost_position.2, almost_err⟩, by decide, next_after (by decide), by decide⟩

theorem test_witness_EventsCarry :
    (almost.Inv ∧ exec (.decByte 0x93) almost = .next (after (.decByte 0x93) almost) ∧
      (after (.decByte 0x93) almost).outcomes = almost.outcomes ++ [.stepOutcome (some (.frame frame11))]) ∧
    (exec (.decByte 0x92) almost = .next (after (.decByte 0x92) almost) ∧
      (after (.decByte 0x92) almost).outcomes =
        almost.outcomes ++ [.stepOutcome (some (.err .crcMismatch 0x93E2))]) ∧
    answer (.decByte 0x10) (at_ .readHeader 7 0 0 0x0001) =
      some (.stepOutcome (some (.err .frameTooLarge 0x1001))) :=
  ⟨⟨almost_position.2, almost_frame⟩, almost_err, by decide⟩

theorem test_witness_ClearIsShared :
    (exec (.decByte 0x93) almost = .next (after (.decByte 0x93) almost) ∧
      (after (.decByte 0x93) almost).outcomes = almost.outcomes ++ [.stepOutcome (some (.frame frame11))]) ∧
    (exec (.decByte 0x92) almost = .next (after (.decByte 0x92) almost) ∧
      (after (.decByte 0x92) almost).outcomes =
        almost.outcomes ++ [.stepOutcome (some (.err .crcMismatch 0x93E2))]) :=
  ⟨almost_frame, almost_err⟩

/-- A step whose outcome is a frame, one whose outcome is an error, and one whose outcome is `None`. -/
theorem test_witness_SignalsExclusive :
    (exec (.decByte 0x93) almost = .next (after (.decByte 0x93) almost) ∧
      (after (.decByte 0x93) almost).outcomes = almost.outcomes ++ [.stepOutcome (some (.frame frame11))]) ∧
    (exec (.decByte 0x92) almost = .next (after (.decByte 0x92) almost) ∧
      (after (.decByte 0x92) almost).outcomes =
        almost.outcomes ++ [.stepOutcome (some (.err .crcMismatch 0x93E2))]) ∧
    (exec (.decByte 0xA5) State.reset = .next (after (.decByte 0xA5) State.reset) ∧
      (after (.decByte 0xA5) State.reset).outcomes = State.reset.outcomes ++ [.stepOutcome none]) :=
  ⟨almost_frame, almost_err, next_after (by decide), by decide⟩

/-- V24: the signals of the step that raises `Err(FrameTooLarge, 5000)`; the false variant of program A: of
`Err(CrcMismatch, 93E2)`. -/
theorem test_signals :
    errCode (after (.decByte 0x13) (at_ .readHeader 7 0 0 0x0088)).decOutcome = 1 ∧
    errInfo (after (.decByte 0x13) (at_ .readHeader 7 0 0 0x0088)).decOutcome = some 0x1388 ∧
    errCode (after (.decByte 0x92) almost).decOutcome = 2 ∧
    errInfo (after (.decByte 0x92) almost).decOutcome = some 0x93E2 := by
  decide +kernel

/-- Each clause at its least index, and the index below it. -/
theorem test_witness_FaultsExactlyOutsideBuffers :
    faultOf (exec (.decByte 0) (at_ .readHeader 8 0 0 0)) = some .headerIndex ∧
    faultOf (exec (.decByte 0) (at_ .readHeader 7 0 0 0)) = none ∧
    faultOf (exec (.decByte 0) (at_ .readPayload 8 4096 0 0)) = some .payloadIndex ∧
    faultOf (exec (.decByte 0) (at_ .readPayload 8 4095 0 0)) = none ∧
    faultOf (exec (.decByte 0) (at_ .readCrc 8 0 1 0x1001)) = some .payloadIndex ∧
    faultOf (exec (.decByte 0) (at_ .readCrc 8 0 0 0x1001)) = none ∧
    faultOf (exec (.decByte 0) (at_ .readCrc 8 0 2 0)) = some .crcIndex ∧
    faultOf (exec (.decByte 0) (at_ .readCrc 8 0 1 0)) = none := by
  decide +kernel

theorem test_witness_FeedIsByteSteps :
    let t := after (.decByte 0x93) almost
    exec (.decByte 0x93) almost = .next t ∧
    t.outcomes = almost.outcomes ++ [.stepOutcome (some (.frame frame11))] ∧
    exec (.decFeed bytes10) t = .next (after (.decFeed bytes10) t) ∧
    (after (.decFeed bytes10) t).outcomes = t.outcomes ++ [.events [.frame frame10]] :=
  ⟨almost_frame.1, almost_frame.2, next_after (by decide +kernel), by decide +kernel⟩

theorem test_witness_FragmentationInvariance : State.reset.Inv ∧ almost.Inv := by decide +kernel

theorem test_witness_NoiseIsDiscarded : State.reset.dec.ps = .seekSof1 ∧ 0xA5#8 ∉ ([0x00, 0x5A] : List Byte) := by
  decide

/-- The shortest, an ordinary and the longest frame; both searching states. -/
theorem test_witness_RoundTrip : frame10.Valid ∧ frame11.Valid ∧ frameMax.Valid ∧
    State.reset.Inv ∧ State.reset.dec.Searching ∧
    (at_ .seekSof2 0 0 0 0).Inv ∧ (at_ .seekSof2 0 0 0 0).dec.Searching := by
  decide +kernel

/-- V21. -/
theorem test_witness_NoiseThenFrameDecodes : frame10.Valid ∧ State.reset.Inv ∧ State.reset.dec.ps = .seekSof1 ∧
    0xA5#8 ∉ ([0x00, 0x5A] : List Byte) := by
  decide

/-- V23: the second payload byte 0x20 of V11 changed to 0x21. -/
theorem test_witness_ResyncAfterBadCrc : frame11.Valid ∧ frame10.Valid ∧ State.reset.Inv ∧
    State.reset.dec.ps = .seekSof1 ∧ ∃ hi : 1 < frame11.payload.length, (0x21 : Byte) ≠ frame11.payload[1] :=
  ⟨by decide, by decide, by decide, rfl, by decide, by decide⟩

/-- V34: the version, the sequence's high byte, the first payload byte and the last CRC byte. -/
theorem test_witness_OneByteDamageRejected : frame11.Valid ∧ State.reset.Inv ∧ State.reset.dec.Searching ∧
    ∀ k ∈ [2, 7, 10, 14], ∃ hk : k < (encodeFrame frame11).length, 2 ≤ k ∧ k ≠ 8 ∧ k ≠ 9 ∧
      (0x77 : Byte) ≠ (encodeFrame frame11)[k] := by
  decide +kernel

theorem test_witness_OversizedHeaderRejected : State.reset.dec.Searching ∧
    4096#16 < (⟨0x01, 0x04, 0, 0, 0x1388⟩ : FrameHeader).payloadLength ∧
    4096#16 < (⟨0x01, 0x04, 0, 0, 0x1001⟩ : FrameHeader).payloadLength ∧
    ¬ 4096#16 < (⟨0x01, 0x04, 0, 0, 0x1000⟩ : FrameHeader).payloadLength := by
  decide

/-- Two payload bytes stored of three: three bytes are left, of which two do not finish the frame. -/
theorem test_witness_FrameTakesItsAnnouncedBytes :
    let s := at_ .readPayload 8 2 0 0x0003
    let left := (s.dec.hdr.payloadLength.toNat - s.dec.pcnt.toNat) + (2 - s.dec.ccnt.toNat)
    s.Inv ∧ s.dec.ps = .readPayload ∧ ([0x30, 0xA5] : List Byte).length < left ∧
    ([0x30, 0xA5, 0x5A] : List Byte).length = left ∧ almost.Inv ∧ almost.dec.ps = .readCrc := by
  decide +kernel

theorem test_witness_EmittedFrameWasOnTheWire :
    State.reset.Inv ∧ State.reset.dec.ps = .seekSof1 ∧ exec (.decFeed bytes11) State.reset = .next almost ∧
    exec (.decByte 0x93) almost = .next (after (.decByte 0x93) almost) ∧
    (after (.decByte 0x93) almost).outcomes = almost.outcomes ++ [.stepOutcome (some (.frame frame11))] :=
  ⟨by decide, rfl, next_after (by decide +kernel), almost_frame⟩

theorem test_witness_EmittedFramesValid :
    State.reset.Inv ∧ exec (.decFeed bytes10) State.reset = .next (after (.decFeed bytes10) State.reset) ∧
    (after (.decFeed bytes10) State.reset).outcomes = State.reset.outcomes ++ [.events [.frame frame10]] ∧
    Event.frame frame10 ∈ [Event.frame frame10] :=
  ⟨by decide, next_after (by decide +kernel), by decide +kernel, by decide⟩

theorem test_witness_DecResetCutsStream : almost.Inv := almost_position.2

/-- The step that serves V11's last byte. -/
theorem test_witness_StepKeepsInvariant :
    let s := { almost with inputs := [.line (.command 0x5 [0x93])] }
    s.Inv ∧ (nextOf (step s)).isSome = true := by
  decide +kernel

theorem test_witness_StepNeverFaults : almost.Inv := almost_position.2

theorem test_witness_EveryInstructionCompletes :
    State.reset.Inv ∧ (∀ f, Instr.encEncode frame11 = .encEncode f → f.Valid) ∧
    (∀ f, Instr.frameAlive body10 = .encEncode f → f.Valid) :=
  ⟨by decide, fun f h => by cases h; decide, fun f h => by cases h⟩

theorem test_witness_RefinesAbstractView : State.reset.Inv ∧ almost.Inv ∧ (at_ .readPayload 8 2 0 0x0003).Inv := by
  decide +kernel

/-- Two states whose stale cells differ: the payload cell the next byte will overwrite. -/
theorem test_witness_StaleContentsUnobservable :
    let s := at_ .readPayload 8 0 0 0x0003
    let t := { s with dec := { s.dec with pbuf := [(0, 0x77)], cbuf := ⟨0x11, 0x22⟩ } }
    s.Inv ∧ t.Inv ∧ s ≠ t ∧ s.dec.view = t.dec.view := by
  decide +kernel

theorem test_witness_UnitsTouchOnlyTheirState :
    exec (.crcByte 0x01) State.reset = .next (after (.crcByte 0x01) State.reset) ∧
    (Instr.crcByte 0x01).unit ≠ .decoder ∧
    exec (.decByte 0xA5) State.reset = .next (after (.decByte 0xA5) State.reset) ∧ (Instr.decByte 0xA5).unit ≠ .crc :=
  ⟨next_after (by decide), by decide, next_after (by decide), by decide⟩

/-- Program D: a CRC step, then a byte for the decoder. -/
theorem test_witness_UnitsCommute :
    let t := after (.crcByte 0x01) State.reset
    (Instr.crcByte 0x01).unit ≠ (Instr.decByte 0xA5).unit ∧ exec (.crcByte 0x01) State.reset = .next t ∧
    exec (.decByte 0xA5) t = .next (after (.decByte 0xA5) t) ∧
    t.outcomes = State.reset.outcomes ++ [.crcOut 0x807E] ∧
    (after (.decByte 0xA5) t).outcomes = t.outcomes ++ [.stepOutcome none] :=
  ⟨by decide, next_after (by decide), next_after (by decide), by decide, by decide⟩

/-- The bytes that store a header cell, a payload cell and each CRC cell, and the cell next to it. -/
theorem test_witness_DecByteFrame :
    (nextOf (exec (.decByte 0x30) (at_ .readPayload 8 2 0 0x0003))).isSome = true ∧
    storeIndex (at_ .readPayload 8 2 0 0x0003).dec = some 2 ∧
    (after (.decByte 0x30) (at_ .readPayload 8 2 0 0x0003)).dec.pbuf = [(2, 0x30)] ∧
    (after (.decByte 0x77) (at_ .readHeader 2 0 0 0)).dec.hbuf = ⟨0x01, 0x02, 0x77, 0x00, 0x01, 0x00, 0x00, 0x00⟩ ∧
    (after (.decByte 0x77) (at_ .readCrc 8 0 0 0)).dec.cbuf = ⟨0x77, 0x00⟩ ∧
    (after (.decByte 0x77) (at_ .readCrc 8 0 1 0)).dec.cbuf = ⟨0x00, 0x77⟩ := by
  decide +kernel

theorem test_witness_DecFeedFrame :
    let s := at_ .readPayload 8 1 0 0x0003
    exec (.decFeed [0x20, 0x30, 0xA5]) s = .next (after (.decFeed [0x20, 0x30, 0xA5]) s) ∧
    feedStores s.dec [0x20, 0x30, 0xA5] = [1, 2] ∧ 0 ∉ feedStores s.dec [0x20, 0x30, 0xA5] ∧
    exec (.frame .command body11) State.reset = .next (after (.frame .command body11) State.reset) ∧
    3 ∉ feedStores State.reset.dec (body11.wire .command) :=
  ⟨next_after (by decide +kernel), by decide +kernel, by decide +kernel, next_after (by decide +kernel),
    by decide +kernel⟩

theorem test_witness_StoresStayInPayloadBuffer :
    (at_ .readPayload 8 4095 0 0x1000).Inv ∧ 4095 ∈ feedStores (at_ .readPayload 8 4095 0 0x1000).dec [0x01] := by
  decide +kernel

theorem test_witness_EncodeReturnsWireBytes : frame10.Valid ∧ frame11.Valid ∧ frameMax.Valid := by decide +kernel

theorem test_witness_EncodedFrameLayout : frame10.Valid ∧ frame11.Valid ∧ frameMax.Valid ∧
    encodeFrame frame11 = encodeFrame frame11 := by
  decide +kernel

/-- The CRC field right and wrong, at payload lengths 0 and 3. -/
theorem test_witness_NamedFrameIsReceived :
    body10.WellFormed ∧ body11.WellFormed ∧ State.reset.Inv ∧ State.reset.dec.Searching ∧
    crc16 ((body11.header .command).bytes.toList ++ body11.payload) = body11.crc ∧
    crc16 ((body11.header .event).bytes.toList ++ body11.payload) ≠ body11.crc := by
  decide +kernel

end Sys2Proof.Tests
end

section
/-! PROOFS. One byte in each parse state as an equation (R93 to R97). `decByte_ok` says what a byte that completes
has done; these equations say when it completes, and the rows of R23 give their hypotheses. -/

namespace Sys2Proof.Machine

/-! ### The rows of the invariant (R23) -/

theorem payloadCells_eq : payloadCells = 4096 := rfl

theorem DecState.inv_readHeader {ds : DecState} (h : ds.inv = true) (hps : ds.ps = .readHeader) :
    ds.hcnt.toNat < 8 := by
  simp only [DecState.inv, DecState.tableRow, hps, Bool.and_eq_true, decide_eq_true_eq] at h
  obtain ⟨⟨⟨hlt, -⟩, -⟩, -⟩ := h
  exact hlt

theorem DecState.inv_readPayload {ds : DecState} (h : ds.inv = true) (hps : ds.ps = .readPayload) :
    ds.pcnt.toNat < ds.hdr.payloadLength.toNat ∧ ds.hdr.payloadLength.toNat ≤ payloadCells ∧
      ds.pbuf.wf = true := by
  simp only [DecState.inv, DecState.tableRow, hps, Bool.and_eq_true, decide_eq_true_eq, BitVec.le_def] at h
  obtain ⟨⟨⟨⟨⟨-, hlt⟩, -⟩, hle⟩, -⟩, hwf⟩ := h
  exact ⟨hlt, hle, hwf⟩

theorem DecState.inv_readCrc {ds : DecState} (h : ds.inv = true) (hps : ds.ps = .readCrc) :
    ds.pcnt.toNat = ds.hdr.payloadLength.toNat ∧ ds.hdr.payloadLength.toNat ≤ payloadCells ∧
      ds.ccnt.toNat < 2 := by
  simp only [DecState.inv, DecState.tableRow, hps, Bool.and_eq_true, decide_eq_true_eq, BitVec.le_def] at h
  obtain ⟨⟨⟨⟨⟨-, heq⟩, hlt⟩, hle⟩, -⟩, -⟩ := h
  exact ⟨heq, hle, hlt⟩

/-! ### One byte, parse state by parse state -/

theorem decByte_seekSof1 {ds : DecState} (hps : ds.ps = .seekSof1) (d : Byte) :
    decByte ds d = .ok ({ ds with ps := if d = 0xA5#8 then .seekSof2 else .seekSof1 }, none) := by
  simp only [decByte, hps, seekSof1Byte]
  split <;> rfl

theorem decByte_seekSof2 {ds : DecState} (hps : ds.ps = .seekSof2) (d : Byte) :
    decByte ds d = .ok (if d = 0x5A#8 then { ds with ps := .readHeader, hcnt := 0 }
      else if d = 0xA5#8 then ds else { ds with ps := .seekSof1 }, none) := by
  simp only [decByte, hps, seekSof2Byte]
  split
  · rfl
  · split
    · rw [← hps]
    · rfl

/-- Below 8 there is a cell to store to. -/
theorem exists_setHeaderByte (h : HeaderBytes) {i : Nat} (hi : i < 8) (d : Byte) :
    ∃ h', setHeaderByte h i d = some h' := by
  interval_cases i <;> exact ⟨_, rfl⟩

/-- A header byte before the eighth. -/
theorem decByte_readHeader_store {ds : DecState} (hps : ds.ps = .readHeader) (hlt : ds.hcnt.toNat < 7) (d : Byte) :
    ∃ hb, hb.toList = ds.hbuf.toList.set ds.hcnt.toNat d ∧
      decByte ds d = .ok ({ ds with hbuf := hb, hcnt := ds.hcnt + 1 }, none) := by
  obtain ⟨hb, hset⟩ := exists_setHeaderByte ds.hbuf (by omega : ds.hcnt.toNat < 8) d
  have hnext : (ds.hcnt + 1).toNat < hdrLen := by simp only [hdrLen]; bv_omega
  refine ⟨hb, (setHeaderByte_some.mp hset).2, ?_⟩
  simp only [decByte, hps, readHeaderByte, hset, if_pos hnext]

/-- The eighth header byte. -/
theorem decByte_readHeader_last {ds : DecState} (hps : ds.ps = .readHeader) (h7 : ds.hcnt = 7) (d : Byte) :
    decByte ds d = .ok (headerComplete { ds with hbuf := { ds.hbuf with b7 := d }, hcnt := 8 }) := by
  simp only [decByte, hps, readHeaderByte, h7]
  rfl

theorem decByte_readPayload {ds : DecState} (hps : ds.ps = .readPayload) (hlt : ds.pcnt.toNat < payloadCells)
    (d : Byte) :
    decByte ds d = .ok (if ds.pcnt.toNat + 1 = ds.hdr.payloadLength.toNat then
        { ds with ps := .readCrc, pbuf := ds.pbuf.write ds.pcnt.toNat d, pcnt := ds.pcnt + 1, ccnt := 0 }
      else { ds with pbuf := ds.pbuf.write ds.pcnt.toNat d, pcnt := ds.pcnt + 1 }, none) := by
  have hstore : memWrite ds.pbuf ds.pcnt.toNat d = some (ds.pbuf.write ds.pcnt.toNat d) := if_pos hlt
  have hnext : (ds.pcnt + 1).toNat = ds.pcnt.toNat + 1 := by rw [payloadCells_eq] at hlt; bv_omega
  simp only [decByte, hps, readPayloadByte, hstore, hnext]
  split <;> rfl

/-- The first CRC byte. -/
theorem decByte_readCrc_first {ds : DecState} (hps : ds.ps = .readCrc) (h0 : ds.ccnt = 0) (d : Byte) :
    decByte ds d = .ok ({ ds with cbuf := { ds.cbuf with b0 := d }, ccnt := 1 }, none) := by
  simp only [decByte, hps, readCrcByte, h0]
  rfl

/-- The second CRC byte. -/
theorem decByte_readCrc_last {ds : DecState} (hps : ds.ps = .readCrc) (h1 : ds.ccnt = 1)
    (hle : ds.hdr.payloadLength.toNat ≤ payloadCells) (d : Byte) :
    let p := payloadPrefix ds ds.hdr.payloadLength.toNat
    let computed := crc16 (ds.hbuf.toList ++ p)
    decByte ds d = .ok (decClear { ds with cbuf := { ds.cbuf with b1 := d } },
      some (if computed = u16le ds.cbuf.b0 d then .frame ⟨ds.hdr, p⟩ else .err .crcMismatch computed)) := by
  have hread : memRead ds.pbuf ds.hdr.payloadLength.toNat =
      some (payloadPrefix ds ds.hdr.payloadLength.toNat) := if_pos hle
  have hbyte : decByte ds d = crcComplete { ds with cbuf := { ds.cbuf with b1 := d }, ccnt := 2 } := by
    simp only [decByte, hps, readCrcByte, h1]
    rfl
  simp only [hbyte, crcComplete, hread]
  split <;> rfl

/-- A byte whose outcome is an event leaves the state of `dec_clear` (R92). -/
theorem decByte_some_cleared {ds ds' : DecState} {d : Byte} {e : Event} (h : decByte ds d = .ok (ds', some e)) :
    ds'.Cleared := by
  obtain ⟨-, ho, -⟩ | ⟨-, ho, -⟩ | ⟨hb, -, -, hheader⟩ | ⟨-, -, ho, -⟩ | ⟨cb, -, -, hcrc⟩ := decByte_ok h
  · cases ho
  · cases ho
  · obtain ⟨-, ho, -⟩ | ⟨-, hdone⟩ := hheader
    · cases ho
    · obtain ⟨-, hc⟩ | ⟨-, hc⟩ | ⟨-, -, hc⟩ := headerComplete_cases { ds with hbuf := hb, hcnt := ds.hcnt + 1 }
      · cases hdone.trans hc
        exact ⟨rfl, rfl, rfl, rfl⟩
      · cases hdone.trans hc
      · cases hdone.trans hc
  · cases ho
  · obtain ⟨-, ho, -⟩ | ⟨-, hdone⟩ := hcrc
    · cases ho
    · obtain ⟨rfl, -, -⟩ := crcComplete_ok hdone
      exact ⟨rfl, rfl, rfl, rfl⟩

/-! ### DEC.BYTE over one byte -/

/-- DEC.BYTE of a byte that completes. -/
theorem exec_decByte_ok {s : State} {d : Byte} {ds : DecState} {o : Option Event}
    (h : decByte s.dec d = .ok (ds, o)) :
    exec (.decByte d) s = .next ((s.setDec ds).respond (.stepOutcome o)) := by
  rw [exec_decByte, h, finishDec_ok]

/-- The outcome DEC.BYTE returned is that of its byte. -/
theorem decByte_of_exec {s t : State} {d : Byte} {o : Option Event} (h : exec (.decByte d) s = .next t)
    (ho : t.outcomes = s.outcomes ++ [.stepOutcome o]) : decByte s.dec d = .ok (t.dec, o) := by
  rw [exec_decByte] at h
  obtain ⟨ds, o', hbyte, rfl⟩ := finishDec_next h
  obtain rfl : o' = o := by simpa using ho
  exact hbyte

end Sys2Proof.Machine
end

section
/-! PROOFS. The statements of 41_decoder.md about one byte: each rule, the transition table, the shared clear. -/

namespace Sys2Proof.Machine

/-- Settles O20: the equation of a byte in SeekSof1. -/
theorem seekSof1Step : Obligations.SeekSof1Step := fun _ d hps => exec_decByte_ok (decByte_seekSof1 hps d)

/-- Settles O21: the equation of a byte in SeekSof2. -/
theorem seekSof2Step : Obligations.SeekSof2Step := fun _ d hps => exec_decByte_ok (decByte_seekSof2 hps d)

/-- Settles O23: the invariant bounds `pcnt`, so the store is inside the buffer, and the laws of the payload
buffer give what is read from it. -/
theorem readPayloadStep : Obligations.ReadPayloadStep := by
  intro s d hinv hps
  obtain ⟨hlt, hle, hwf⟩ := DecState.inv_readPayload hinv hps
  have hbyte := decByte_readPayload hps (by omega) d
  refine ⟨_, exec_decByte_ok hbyte, rfl, rfl, rfl, ?_⟩
  simp only [respond_dec, setDec_dec]
  split <;> exact ⟨Memory.read_write_same _ d hwf, fun _ ha => Memory.read_write_other _ d ha, rfl⟩

/-- The rows of R98 for ReadHeader. -/
theorem decByte_readHeader_row {ds : DecState} (hinv : ds.inv = true) (hps : ds.ps = .readHeader) (d : Byte) :
    let len := u16le ds.hbuf.b6 d
    ∃ ds' o, decByte ds d = .ok (ds', o) ∧
      if ds.hcnt.toNat < 7 then ds'.ps = .readHeader ∧ o = none
      else if 4096#16 < len then ds'.ps = .seekSof1 ∧ ∃ info, o = some (.err .frameTooLarge info)
      else if len = 0 then ds'.ps = .readCrc ∧ o = none
      else ds'.ps = .readPayload ∧ o = none := by
  intro len
  have hlt := DecState.inv_readHeader hinv hps
  split
  next hstore =>
    obtain ⟨hb, -, hbyte⟩ := decByte_readHeader_store hps hstore d
    exact ⟨_, _, hbyte, hps, rfl⟩
  next hlast =>
    have hbyte := decByte_readHeader_last hps (by bv_omega) d
    obtain ⟨hlarge, hc⟩ | ⟨hzero, hc⟩ | ⟨hsmall, hpos, hc⟩ :=
      headerComplete_cases { ds with hbuf := { ds.hbuf with b7 := d }, hcnt := 8 }
    · refine ⟨_, _, hbyte.trans (congrArg _ hc), ?_⟩
      rw [if_pos (show 4096#16 < len from hlarge)]
      exact ⟨rfl, _, rfl⟩
    · refine ⟨_, _, hbyte.trans (congrArg _ hc), ?_⟩
      rw [show len = 0 from hzero]
      exact ⟨rfl, rfl⟩
    · refine ⟨_, _, hbyte.trans (congrArg _ hc), ?_⟩
      rw [if_neg (show ¬ 4096#16 < len from BitVec.not_lt.mpr hsmall), if_neg (show len ≠ 0 from hpos)]
      exact ⟨rfl, rfl⟩

/-- The rows of R98 for ReadCrc. -/
theorem decByte_readCrc_row {ds : DecState} (hinv : ds.inv = true) (hps : ds.ps = .readCrc) (d : Byte) :
    let computed := crc16 (ds.hbuf.toList ++ payloadPrefix ds ds.pcnt.toNat)
    ∃ ds' o, decByte ds d = .ok (ds', o) ∧
      if ds.ccnt = 0 then ds'.ps = .readCrc ∧ o = none
      else if computed = u16le ds.cbuf.b0 d then ds'.ps = .seekSof1 ∧ ∃ f, o = some (.frame f)
      else ds'.ps = .seekSof1 ∧ ∃ info, o = some (.err .crcMismatch info) := by
  obtain ⟨hcount, hle, hlt⟩ := DecState.inv_readCrc hinv hps
  rw [hcount]
  split
  next hfirst => exact ⟨_, _, decByte_readCrc_first hps hfirst d, hps, rfl⟩
  next hlast =>
    refine ⟨_, _, decByte_readCrc_last hps (by bv_omega) hle d, ?_⟩
    split
    · exact ⟨rfl, _, rfl⟩
    · exact ⟨rfl, _, rfl⟩

/-- Settles O25: in each parse state the byte's equation gives the table's row. -/
theorem transitionTable : Obligations.TransitionTable := by
  refine ⟨fun s d hinv => ?_, fun s => ⟨_, exec_decReset s, rfl⟩⟩
  cases hps : s.dec.ps
  case seekSof1 => exact ⟨_, _, exec_decByte_ok (decByte_seekSof1 hps d), rfl, rfl, rfl⟩
  case seekSof2 =>
    refine ⟨_, _, exec_decByte_ok (decByte_seekSof2 hps d), rfl, ?_, rfl⟩
    simp only [respond_dec, setDec_dec, apply_ite DecState.ps, hps]
  case readHeader =>
    obtain ⟨_, o, hbyte, hrow⟩ := decByte_readHeader_row hinv hps d
    exact ⟨_, o, exec_decByte_ok hbyte, rfl, hrow⟩
  case readPayload =>
    obtain ⟨hlt, hle, -⟩ := DecState.inv_readPayload hinv hps
    refine ⟨_, _, exec_decByte_ok (decByte_readPayload hps (by omega) d), rfl, ?_, rfl⟩
    simp only [respond_dec, setDec_dec, apply_ite DecState.ps, hps]
    split
    next hfull => rw [if_neg (by omega)]
    next hmore => rw [if_pos (by omega)]
  case readCrc =>
    obtain ⟨_, o, hbyte, hrow⟩ := decByte_readCrc_row hinv hps d
    exact ⟨_, o, exec_decByte_ok hbyte, rfl, hrow⟩

/-- Settles O28: a byte's event is a frame or an error, and either comes with the clear. -/
theorem clearIsShared : Obligations.ClearIsShared :=
  ⟨fun s => ⟨_, exec_decReset s, rfl, rfl, rfl, rfl⟩,
    fun _ _ _ _ h ho => decByte_some_cleared (decByte_of_exec h ho),
    fun _ _ _ _ _ h ho => decByte_some_cleared (decByte_of_exec h ho)⟩

end Sys2Proof.Machine
end

section
/-! PROOFS. The statement of 60_exceptions.md about when each error is raised (R131, R132), read off the rows of the
transition table (R98). -/

namespace Sys2Proof.Machine

/-- Settles O26: each row of the transition table names its outcome, and the invariant makes the counter of the
row's last byte exact: `hcnt` is 7 when not below 7, `ccnt` is 1 when not 0. -/
theorem errorsExactlyWhen : Obligations.ErrorsExactlyWhen := by
  intro s t d o hinv hexec hout
  obtain ⟨t', o', hexec', hout', hrow⟩ := transitionTable.1 s d hinv
  obtain rfl : t = t' := Host.Outcome.next.inj (hexec.symm.trans hexec')
  obtain rfl : o = o' := by simpa using hout.symm.trans hout'
  cases hps : s.dec.ps <;> simp only [hps] at hrow
  case seekSof1 | seekSof2 | readPayload => simp [hrow.2]
  case readHeader =>
    have hlt := DecState.inv_readHeader hinv hps
    split at hrow
    next hstore =>
      have hne : s.dec.hcnt ≠ 7#4 := by bv_omega
      simp [hrow.2, hne]
    next hlast =>
      have h7 : s.dec.hcnt = 7 := by bv_omega
      split at hrow
      next hlarge =>
        obtain ⟨-, info, rfl⟩ := hrow
        simp [h7, hlarge]
      next hlegal =>
        have hnone : o = none := by split at hrow <;> exact hrow.2
        simp [hnone, hlegal]
  case readCrc =>
    obtain ⟨hcount, -, hlt⟩ := DecState.inv_readCrc hinv hps
    rw [hcount] at hrow
    split at hrow
    next hfirst => simp [hrow.2, hfirst]
    next hlast =>
      have h1 : s.dec.ccnt = 1 := by bv_omega
      split at hrow
      next hequal =>
        obtain ⟨-, f, rfl⟩ := hrow
        simp [hequal]
      next hdiffers =>
        obtain ⟨-, info, rfl⟩ := hrow
        simp [h1, hdiffers]

end Sys2Proof.Machine
end

section
/-! PROOFS. The register machine is the list automaton of R24: the rows of R23 as equivalences, one byte in each
parse state over the view, and a chunk. What a decoder in the invariant returns can then be read off the automaton. -/

namespace Sys2Proof

@[simp] theorem HeaderBytes.length_toList (h : HeaderBytes) : h.toList.length = 8 := rfl

theorem HeaderBytes.toList_injective {h h' : HeaderBytes} (heq : h.toList = h'.toList) : h = h' := by
  cases h
  cases h'
  simpa [HeaderBytes.toList] using heq

end Sys2Proof

namespace Sys2Proof.Machine

/-! ### The rows of the invariant as equivalences (R23) -/

theorem DecState.inv_searching_iff {ds : DecState} (hps : ds.Searching) :
    ds.inv = true ↔ ds.hcnt = 0 ∧ ds.pcnt = 0 ∧ ds.ccnt = 0 ∧ ds.pbuf.wf = true := by
  obtain hps | hps := hps <;> simp [DecState.inv, DecState.tableRow, hps, and_assoc]

theorem DecState.inv_readHeader_iff {ds : DecState} (hps : ds.ps = .readHeader) :
    ds.inv = true ↔ ds.hcnt.toNat < 8 ∧ ds.pcnt = 0 ∧ ds.ccnt = 0 ∧ ds.pbuf.wf = true := by
  simp [DecState.inv, DecState.tableRow, hps, and_assoc]

theorem DecState.inv_readPayload_iff {ds : DecState} (hps : ds.ps = .readPayload) :
    ds.inv = true ↔ ds.hcnt = 8 ∧ ds.pcnt.toNat < ds.hdr.payloadLength.toNat ∧ ds.ccnt = 0 ∧
      ds.hdr.payloadLength ≤ 4096#16 ∧ ds.hdr = ds.hbuf.parse ∧ ds.pbuf.wf = true := by
  simp [DecState.inv, DecState.tableRow, hps, and_assoc]

theorem DecState.inv_readCrc_iff {ds : DecState} (hps : ds.ps = .readCrc) :
    ds.inv = true ↔ ds.hcnt = 8 ∧ ds.pcnt.toNat = ds.hdr.payloadLength.toNat ∧ ds.ccnt.toNat < 2 ∧
      ds.hdr.payloadLength ≤ 4096#16 ∧ ds.hdr = ds.hbuf.parse ∧ ds.pbuf.wf = true := by
  simp [DecState.inv, DecState.tableRow, hps, and_assoc]

/-- The invariant keeps the payload buffer in its canonical form in every row. -/
theorem DecState.inv_wf {ds : DecState} (h : ds.inv = true) : ds.pbuf.wf = true :=
  ((Bool.and_eq_true _ _).mp h).2

/-- A clear keeps nothing of the row but the buffer's form. -/
theorem decClear_inv {ds : DecState} (h : ds.pbuf.wf = true) : (decClear ds).inv = true :=
  (DecState.inv_searching_iff (.inl rfl)).mpr ⟨rfl, rfl, rfl, h⟩

/-! ### The view, parse state by parse state (R24) -/

theorem view_seekSof1 {ds : DecState} (hps : ds.ps = .seekSof1) : ds.view = .seekSof1 := by
  simp only [DecState.view, hps]

theorem view_seekSof2 {ds : DecState} (hps : ds.ps = .seekSof2) : ds.view = .seekSof2 := by
  simp only [DecState.view, hps]

theorem view_readHeader {ds : DecState} (hps : ds.ps = .readHeader) :
    ds.view = .readHeader (ds.hbuf.toList.take ds.hcnt.toNat) := by
  simp only [DecState.view, hps]

theorem view_readPayload {ds : DecState} (hps : ds.ps = .readPayload) :
    ds.view = .readPayload ds.hbuf (payloadPrefix ds ds.pcnt.toNat) := by
  simp only [DecState.view, hps]

theorem view_readCrc {ds : DecState} (hps : ds.ps = .readCrc) :
    ds.view = .readCrc ds.hbuf (payloadPrefix ds ds.pcnt.toNat) ([ds.cbuf.b0, ds.cbuf.b1].take ds.ccnt.toNat) := by
  simp only [DecState.view, hps]

@[simp] theorem view_decClear (ds : DecState) : (decClear ds).view = .seekSof1 := rfl

/-- A decoder of the invariant whose view is that of SeekSof1 is cleared. -/
theorem cleared_of_view {ds : DecState} (hinv : ds.inv = true) (hv : ds.view = .seekSof1) : ds.Cleared := by
  have hps : ds.ps = .seekSof1 := by
    cases hps : ds.ps <;> simp [DecState.view, hps] at hv ⊢
  obtain ⟨hh, hp, hc, -⟩ := (DecState.inv_searching_iff (.inl hps)).mp hinv
  exact ⟨hps, hh, hp, hc⟩

/-! ### The payload stored so far -/

@[simp] theorem length_payloadPrefix (ds : DecState) (n : Nat) : (payloadPrefix ds n).length = n := by
  simp [payloadPrefix]

/-- Storing a byte behind the payload stored so far extends it by that byte. -/
theorem payloadPrefix_succ_of_write {ds ds' : DecState} {n : Nat} {d : Byte} (hwf : ds.pbuf.wf = true)
    (hwrite : ds'.pbuf = ds.pbuf.write n d) : payloadPrefix ds' (n + 1) = payloadPrefix ds n ++ [d] := by
  have hkept : (List.range n).map ds'.pbuf.read = (List.range n).map ds.pbuf.read :=
    List.map_congr_left fun a ha => by
      rw [hwrite, Memory.read_write_other _ _ (List.mem_range.mp ha).ne]
  have hnew : ds'.pbuf.read n = d := by rw [hwrite, Memory.read_write_same n d hwf]
  simp [payloadPrefix, List.range_succ, hkept, hnew]

/-! ### One byte of the automaton -/

theorem byte_readHeader_store {h : List Byte} (hlt : h.length < 7) (d : Byte) :
    (DecView.readHeader h).byte d = (.readHeader (h ++ [d]), none) := by
  simp only [DecView.byte]
  split
  next heq =>
    have := congrArg List.length heq
    simp at this
    omega
  next => rfl

theorem byte_readHeader_last {h : List Byte} {d : Byte} {hb : HeaderBytes} (heq : h ++ [d] = hb.toList) :
    (DecView.readHeader h).byte d = DecView.headerDone hb := by
  simp only [DecView.byte, heq, HeaderBytes.toList]

theorem byte_readCrc_first (h : HeaderBytes) (p : List Byte) (d : Byte) :
    (DecView.readCrc h p []).byte d = (.readCrc h p [d], none) := rfl

theorem byte_readCrc_last (h : HeaderBytes) (p : List Byte) (c d : Byte) :
    (DecView.readCrc h p [c]).byte d = DecView.frameDone h p (u16le c d) := rfl

/-- Whatever the CRC, a whole frame gives one event and the search starts again. -/
theorem frameDone_eq (h : HeaderBytes) (p : List Byte) (c : Word) :
    DecView.frameDone h p c = (.seekSof1, some (if crc16 (h.toList ++ p) = c then .frame ⟨h.parse, p⟩
      else .err .crcMismatch (crc16 (h.toList ++ p)))) := by
  simp only [DecView.frameDone]
  split <;> rfl

/-! ### One byte of the machine is one byte of the automaton -/

/-- The byte `d` completes in `ds`, keeps the invariant, and is the automaton's byte on the view. -/
def ByteRefined (ds : DecState) (d : Byte) : Prop :=
  ∃ ds' o, decByte ds d = .ok (ds', o) ∧ ds'.inv = true ∧ ds.view.byte d = (ds'.view, o)

theorem ByteRefined.intro {ds ds' : DecState} {d : Byte} {v' : DecView} {o : Option Event}
    (hbyte : decByte ds d = .ok (ds', o)) (hinv : ds'.inv = true) (hview' : ds'.view = v')
    (hview : ds.view.byte d = (v', o)) : ByteRefined ds d :=
  ⟨ds', o, hbyte, hinv, by rw [hview, hview']⟩

theorem byteRefined_seekSof1 {ds : DecState} (hinv : ds.inv = true) (hps : ds.ps = .seekSof1) (d : Byte) :
    ByteRefined ds d := by
  have hrow := (DecState.inv_searching_iff (.inl hps)).mp hinv
  have hbyte := decByte_seekSof1 hps d
  by_cases hd : d = 0xA5#8
  · rw [if_pos hd] at hbyte
    exact .intro hbyte ((DecState.inv_searching_iff (.inr rfl)).mpr hrow) (view_seekSof2 rfl)
      (by simp [view_seekSof1 hps, DecView.byte, hd])
  · rw [if_neg hd] at hbyte
    exact .intro hbyte ((DecState.inv_searching_iff (.inl rfl)).mpr hrow) (view_seekSof1 rfl)
      (by simp [view_seekSof1 hps, DecView.byte, hd])

theorem byteRefined_seekSof2 {ds : DecState} (hinv : ds.inv = true) (hps : ds.ps = .seekSof2) (d : Byte) :
    ByteRefined ds d := by
  have hrow := (DecState.inv_searching_iff (.inr hps)).mp hinv
  have ⟨_, hp, hc, hwf⟩ := hrow
  have hbyte := decByte_seekSof2 hps d
  by_cases hsof2 : d = 0x5A#8
  · rw [if_pos hsof2] at hbyte
    exact .intro hbyte ((DecState.inv_readHeader_iff rfl).mpr ⟨by simp, hp, hc, hwf⟩) (view_readHeader rfl)
      (by simp [view_seekSof2 hps, DecView.byte, hsof2])
  · rw [if_neg hsof2] at hbyte
    by_cases hsof1 : d = 0xA5#8
    · rw [if_pos hsof1] at hbyte
      exact .intro hbyte hinv (view_seekSof2 hps) (by simp [view_seekSof2 hps, DecView.byte, hsof1])
    · rw [if_neg hsof1] at hbyte
      exact .intro hbyte ((DecState.inv_searching_iff (.inl rfl)).mpr hrow) (view_seekSof1 rfl)
        (by simp [view_seekSof2 hps, DecView.byte, hsof1, hsof2])

/-- The end of a header on the machine is the end of a header on the view (R95). -/
theorem headerComplete_refined {ds : DecState} (hh : ds.hcnt = 8) (hc : ds.ccnt = 0) (hwf : ds.pbuf.wf = true) :
    (headerComplete ds).1.inv = true ∧
      DecView.headerDone ds.hbuf = ((headerComplete ds).1.view, (headerComplete ds).2) := by
  obtain ⟨hlarge, heq⟩ | ⟨hzero, heq⟩ | ⟨hle, hpos, heq⟩ := headerComplete_cases ds <;> rw [heq]
  · exact ⟨decClear_inv hwf, by simp [DecView.headerDone, hlarge]⟩
  · exact ⟨(DecState.inv_readCrc_iff rfl).mpr ⟨hh, by simp [hzero], by simp, by simp [hzero], rfl, hwf⟩,
      by simp [DecView.headerDone, hzero, view_readCrc, payloadPrefix]⟩
  · have hlt : 0 < ds.hbuf.parse.payloadLength.toNat :=
      Nat.pos_of_ne_zero fun h0 => hpos (BitVec.eq_of_toNat_eq h0)
    refine ⟨(DecState.inv_readPayload_iff rfl).mpr ⟨hh, hlt, hc, hle, rfl, hwf⟩, ?_⟩
    rw [DecView.headerDone, if_neg (BitVec.not_lt.mpr hle), if_neg hpos, view_readPayload rfl]
    rfl

theorem byteRefined_readHeader {ds : DecState} (hinv : ds.inv = true) (hps : ds.ps = .readHeader) (d : Byte) :
    ByteRefined ds d := by
  obtain ⟨hlt, hp, hc, hwf⟩ := (DecState.inv_readHeader_iff hps).mp hinv
  by_cases hstore : ds.hcnt.toNat < 7
  · obtain ⟨hb, hset, hbyte⟩ := decByte_readHeader_store hps hstore d
    have hnext : (ds.hcnt + 1).toNat = ds.hcnt.toNat + 1 := by bv_omega
    have hstored : hb.toList.take (ds.hcnt.toNat + 1) = ds.hbuf.toList.take ds.hcnt.toNat ++ [d] := by
      rw [hset, List.take_add_one, List.take_set_of_le (Nat.le_refl _), List.getElem?_set_self (by simpa using hlt)]
      rfl
    refine .intro hbyte ((DecState.inv_readHeader_iff (by exact hps)).mpr ⟨?_, hp, hc, hwf⟩)
      (view_readHeader (by exact hps)) ?_
    · simp only [hnext]
      omega
    · rw [view_readHeader hps, byte_readHeader_store (by simp; omega), hnext, hstored]
  · have h7 : ds.hcnt = 7 := by bv_omega
    obtain ⟨hinv', hview⟩ := headerComplete_refined
      (ds := { ds with hbuf := { ds.hbuf with b7 := d }, hcnt := 8 }) rfl hc hwf
    refine .intro (decByte_readHeader_last hps h7 d) hinv' rfl ?_
    rw [view_readHeader hps, h7, byte_readHeader_last (hb := { ds.hbuf with b7 := d }) rfl]
    exact hview

theorem byteRefined_readPayload {ds : DecState} (hinv : ds.inv = true) (hps : ds.ps = .readPayload) (d : Byte) :
    ByteRefined ds d := by
  obtain ⟨hh, hlt, hc, hle, hhdr, hwf⟩ := (DecState.inv_readPayload_iff hps).mp hinv
  have hcell : ds.pcnt.toNat < payloadCells := by rw [payloadCells_eq]; bv_omega
  have hnext : (ds.pcnt + 1).toNat = ds.pcnt.toNat + 1 := by rw [payloadCells_eq] at hcell; bv_omega
  have hwf' := Memory.wf_write d hwf hcell
  have hbyte := decByte_readPayload hps hcell d
  by_cases hfull : ds.pcnt.toNat + 1 = ds.hdr.payloadLength.toNat
  · rw [if_pos hfull] at hbyte
    refine .intro hbyte
      ((DecState.inv_readCrc_iff rfl).mpr ⟨hh, hnext.trans hfull, by simp, hle, hhdr, hwf'⟩) (view_readCrc rfl) ?_
    rw [hnext, payloadPrefix_succ_of_write hwf rfl, view_readPayload hps]
    simp [DecView.byte, ← hhdr, hfull]
  · rw [if_neg hfull] at hbyte
    refine .intro hbyte
      ((DecState.inv_readPayload_iff (by exact hps)).mpr ⟨hh, ?_, hc, hle, hhdr, hwf'⟩)
      (view_readPayload (by exact hps)) ?_
    · simp only [hnext]
      omega
    · rw [hnext, payloadPrefix_succ_of_write hwf rfl, view_readPayload hps]
      simp [DecView.byte, ← hhdr, hfull]

theorem byteRefined_readCrc {ds : DecState} (hinv : ds.inv = true) (hps : ds.ps = .readCrc) (d : Byte) :
    ByteRefined ds d := by
  obtain ⟨hh, hfull, hlt, hle, hhdr, hwf⟩ := (DecState.inv_readCrc_iff hps).mp hinv
  by_cases h0 : ds.ccnt = 0
  · refine .intro (decByte_readCrc_first hps h0 d)
      ((DecState.inv_readCrc_iff (by exact hps)).mpr ⟨hh, hfull, by simp, hle, hhdr, hwf⟩)
      (view_readCrc (by exact hps)) ?_
    rw [view_readCrc hps, h0]
    rfl
  · have h1 : ds.ccnt = 1 := by bv_omega
    refine .intro (decByte_readCrc_last hps h1 hle d) (decClear_inv hwf) (view_decClear _) ?_
    rw [view_readCrc hps, h1, ← hfull, hhdr]
    exact (byte_readCrc_last _ _ _ _).trans (frameDone_eq _ _ _)

/-- From the invariant every byte completes and is the automaton's. -/
theorem byteRefined {ds : DecState} (hinv : ds.inv = true) (d : Byte) : ByteRefined ds d := by
  cases hps : ds.ps
  case seekSof1 => exact byteRefined_seekSof1 hinv hps d
  case seekSof2 => exact byteRefined_seekSof2 hinv hps d
  case readHeader => exact byteRefined_readHeader hinv hps d
  case readPayload => exact byteRefined_readPayload hinv hps d
  case readCrc => exact byteRefined_readCrc hinv hps d

/-- A byte that completes from the invariant keeps it. -/
theorem decByte_inv {ds ds' : DecState} {d : Byte} {o : Option Event} (hinv : ds.inv = true)
    (h : decByte ds d = .ok (ds', o)) : ds'.inv = true := by
  obtain ⟨_, _, hbyte, hinv', -⟩ := byteRefined hinv d
  cases hbyte.symm.trans h
  exact hinv'

/-- Settles O47: the simulation of one byte, seen through DEC.BYTE. -/
theorem refinesAbstractView : Obligations.RefinesAbstractView := by
  intro s d hinv
  obtain ⟨_, o, hbyte, -, hview⟩ := byteRefined hinv d
  exact ⟨_, o, exec_decByte_ok hbyte, rfl, hview⟩

/-! ### A chunk of the machine is a chunk of the automaton -/

/-- A chunk on the view: one byte after the other, the events collected. -/
def DecView.feed : DecView → List Byte → DecView × List Event
  | v, [] => (v, [])
  | v, d :: bs => (((v.byte d).1.feed bs).1, (v.byte d).2.toList ++ ((v.byte d).1.feed bs).2)

@[simp] theorem feed_nil (v : DecView) : v.feed [] = (v, []) := rfl

theorem feed_cons (v : DecView) (d : Byte) (bs : List Byte) :
    v.feed (d :: bs) = (((v.byte d).1.feed bs).1, (v.byte d).2.toList ++ ((v.byte d).1.feed bs).2) := rfl

theorem feed_append (v : DecView) (a b : List Byte) :
    v.feed (a ++ b) = (((v.feed a).1.feed b).1, (v.feed a).2 ++ ((v.feed a).1.feed b).2) := by
  induction a generalizing v with
  | nil => rfl
  | cons d a ih => simp only [List.cons_append, feed_cons, ih, List.append_assoc]

/-- From the invariant a chunk completes, keeps it, and is the automaton's chunk. -/
theorem feedBytes_refined {ds : DecState} (hinv : ds.inv = true) (bs : List Byte) :
    ∃ ds', feedBytes ds bs = .ok (ds', (ds.view.feed bs).2) ∧ ds'.inv = true ∧
      ds'.view = (ds.view.feed bs).1 := by
  induction bs generalizing ds with
  | nil => exact ⟨ds, rfl, hinv, rfl⟩
  | cons d bs ih =>
    obtain ⟨ds1, o, hbyte, hinv1, hview⟩ := byteRefined hinv d
    obtain ⟨ds2, hfeed, hinv2, hview2⟩ := ih hinv1
    refine ⟨ds2, ?_, hinv2, ?_⟩ <;> rw [feed_cons, hview]
    · exact feedBytes_cons hbyte hfeed
    · exact hview2

/-- DEC.FEED of a chunk that completes. -/
theorem exec_decFeed_ok {s : State} {bs : List Byte} {ds : DecState} {es : List Event}
    (h : feedBytes s.dec bs = .ok (ds, es)) :
    exec (.decFeed bs) s = .next ((s.setDec ds).respond (.events es)) := by
  rw [exec_decFeed, h, finishDec_ok]

/-- The events DEC.FEED returned are those of its chunk. -/
theorem feedBytes_of_exec {s t : State} {bs : List Byte} {es : List Event} (h : exec (.decFeed bs) s = .next t)
    (hes : t.outcomes = s.outcomes ++ [.events es]) : feedBytes s.dec bs = .ok (t.dec, es) := by
  rw [exec_decFeed] at h
  obtain ⟨ds, es', hfeed, rfl⟩ := finishDec_next h
  obtain rfl : es' = es := by simpa using hes
  exact hfeed

/-- DEC.FEED of a chunk that leaves the automaton searching leaves the decoder cleared. -/
theorem exec_decFeed_cleared {s : State} {bs : List Byte} {es : List Event} (hinv : s.Inv)
    (hfeed : s.dec.view.feed bs = (.seekSof1, es)) :
    ∃ t, exec (.decFeed bs) s = .next t ∧ t.outcomes = s.outcomes ++ [.events es] ∧ t.dec.Cleared ∧
      t.crcAcc = s.crcAcc ∧ t.inputs = s.inputs := by
  obtain ⟨ds, hbytes, hinv', hview⟩ := feedBytes_refined hinv bs
  rw [hfeed] at hbytes hview
  exact ⟨_, exec_decFeed_ok hbytes, rfl, cleared_of_view hinv' hview, rfl, rfl⟩

/-- Settles O48: the view determines the automaton's run. -/
theorem staleContentsUnobservable : Obligations.StaleContentsUnobservable := by
  intro s₁ s₂ bs hinv₁ hinv₂ hviews
  obtain ⟨ds₁, hfeed₁, -, hview₁⟩ := feedBytes_refined hinv₁ bs
  obtain ⟨ds₂, hfeed₂, -, hview₂⟩ := feedBytes_refined hinv₂ bs
  rw [← hviews] at hfeed₂ hview₂
  exact ⟨_, _, _, exec_decFeed_ok hfeed₁, exec_decFeed_ok hfeed₂, rfl, rfl, hview₁.trans hview₂.symm⟩

/-- Settles O42: after the clear the view is that of the reset state. -/
theorem decResetCutsStream : Obligations.DecResetCutsStream := by
  intro s bs hinv
  have hreset : State.reset.Inv := by decide
  obtain ⟨_, hfeed, -, -⟩ := feedBytes_refined (decClear_inv (DecState.inv_wf hinv)) bs
  obtain ⟨_, hfeed', -, -⟩ := feedBytes_refined hreset bs
  exact ⟨_, _, _, _, exec_decReset s, exec_decFeed_ok hfeed, rfl, exec_decFeed_ok hfeed', rfl⟩

end Sys2Proof.Machine
end

section
/-! PROOFS. Each unit's instructions as functions of that unit's state alone (R10, R41): from this follow the
invariant along every step, completion, and the independence of the units. -/

namespace Sys2Proof.Machine

/-! ### What an instruction of each unit does -/

/-- An instruction of the CRC unit maps `crc_acc` to its new value and a response. -/
theorem exec_crcUnit {i : Instr} (hu : i.unit = .crc) :
    ∃ g : Word → Word × Response,
      ∀ s, exec i s = .next ((s.setCrcAcc (g s.crcAcc).1).respond (g s.crcAcc).2) := by
  cases i <;> cases hu
  case crcInit => exact ⟨fun _ => (config.crcInit, .nothing), exec_crcInit⟩
  case crcByte d => exact ⟨fun c => (crcByte c d, .crcOut (crcByte c d)), exec_crcByte d⟩
  case crcCompute bs => exact ⟨fun _ => (crc16 bs, .crcOut (crc16 bs)), exec_crcCompute bs⟩

/-- The operation `op` maps `DS` to its new value and a response, or faults; from the invariant it completes and
keeps it. -/
def ActsOnDec (op : State → Host.Outcome State Fault Refusal) : Prop :=
  ∃ g : DecState → Except Fault (DecState × Response), (∀ s, op s = s.finishDec (g s.dec) id) ∧
    ∀ ds, ds.inv = true → ∃ ds' r, g ds = .ok (ds', r) ∧ ds'.inv = true

theorem actsOnDec_finishDec {α : Type} {g : DecState → Except Fault (DecState × α)} (answer : α → Response)
    (htotal : ∀ ds, ds.inv = true → ∃ ds' a, g ds = .ok (ds', a) ∧ ds'.inv = true) :
    ActsOnDec fun s => s.finishDec (g s.dec) answer := by
  refine ⟨fun ds => (g ds).map fun p => (p.1, answer p.2), fun s => ?_, fun ds hinv => ?_⟩
  · dsimp only
    cases g s.dec <;> rfl
  · obtain ⟨ds', a, hg, hinv'⟩ := htotal ds hinv
    exact ⟨ds', answer a, by dsimp only; rw [hg]; rfl, hinv'⟩

theorem actsOnDec_feedBytes (bs : List Byte) : ActsOnDec fun s => s.finishDec (feedBytes s.dec bs) .events :=
  actsOnDec_finishDec (g := (feedBytes · bs)) .events fun _ hinv => by
    obtain ⟨ds', hbytes, hinv', -⟩ := feedBytes_refined hinv bs
    exact ⟨ds', _, hbytes, hinv'⟩

theorem actsOnDec_decByte (d : Byte) : ActsOnDec fun s => s.finishDec (decByte s.dec d) .stepOutcome :=
  actsOnDec_finishDec (g := (decByte · d)) .stepOutcome fun _ hinv => by
    obtain ⟨ds', o, hbyte, hinv', -⟩ := byteRefined hinv d
    exact ⟨ds', o, hbyte, hinv'⟩

/-- Every instruction of the decoder acts on `DS` alone. -/
theorem exec_decoderUnit {i : Instr} (hu : i.unit = .decoder) : ActsOnDec (exec i) := by
  cases i <;> cases hu
  case decReset =>
    exact ⟨fun ds => .ok (decClear ds, .stepOutcome none), exec_decReset,
      fun ds hinv => ⟨_, _, rfl, decClear_inv (DecState.inv_wf hinv)⟩⟩
  case decByte d => exact actsOnDec_decByte d
  case decFeed bs => exact actsOnDec_feedBytes bs
  case frameAlive b => exact actsOnDec_feedBytes (b.wire .alive)
  case frameCommand b => exact actsOnDec_feedBytes (b.wire .command)
  case frameResponse b => exact actsOnDec_feedBytes (b.wire .response)
  case frameTelemetry b => exact actsOnDec_feedBytes (b.wire .telemetry)
  case frameEvent b => exact actsOnDec_feedBytes (b.wire .event)

/-- An instruction of the encoder answers the same in every state, or is refused in every state. -/
theorem exec_encoderUnit {i : Instr} (hu : i.unit = .encoder) :
    (∃ r, ∀ s, exec i s = .next (s.respond r)) ∨
      ∃ f, i = .encEncode f ∧ ¬ f.Valid ∧ ∀ s, exec i s = .refused .invalidFrame := by
  cases i <;> cases hu
  case encEncode f =>
    by_cases hf : f.Valid
    · exact .inl ⟨_, fun s => (exec_encEncode f s).trans (if_pos hf)⟩
    · exact .inr ⟨f, rfl, hf, fun s => (exec_encEncode f s).trans (if_neg hf)⟩

/-! ### The invariant along every step (R23, R161) -/

/-- From the invariant an instruction completes and keeps it, or is ENC.ENCODE of an invalid frame, refused. -/
theorem exec_inv (i : Instr) {s : State} (hinv : s.Inv) :
    (∃ t, exec i s = .next t ∧ t.Inv) ∨
      ∃ f, i = .encEncode f ∧ ¬ f.Valid ∧ exec i s = .refused .invalidFrame := by
  cases hu : i.unit
  case crc =>
    obtain ⟨g, hexec⟩ := exec_crcUnit hu
    exact .inl ⟨_, hexec s, hinv⟩
  case decoder =>
    obtain ⟨g, hexec, htotal⟩ := exec_decoderUnit hu
    obtain ⟨ds', r, hg, hinv'⟩ := htotal s.dec hinv
    exact .inl ⟨_, by rw [hexec, hg, finishDec_ok], hinv'⟩
  case encoder =>
    obtain ⟨r, hexec⟩ | ⟨f, rfl, hf, hexec⟩ := exec_encoderUnit hu
    · exact .inl ⟨_, hexec s, hinv⟩
    · exact .inr ⟨f, rfl, hf, hexec s⟩

/-- Settles O46: the one way not to complete is the refusal of an invalid frame. -/
theorem everyInstructionCompletes : Obligations.EveryInstructionCompletes := by
  intro i s hinv hvalid
  obtain hnext | ⟨f, hf, hinvalid, -⟩ := exec_inv i hinv
  · exact hnext
  · exact absurd (hvalid f hf) hinvalid

/-- Settles O8: `fetch` looks at the oldest input and its decoding, and nothing else. -/
theorem stepRunsDecodedInstruction : Obligations.StepRunsDecodedInstruction := by
  intro s rest
  refine ⟨fun l i hin hl => ?_, fun l e hin hl => ?_, fun hin => ?_, fun hin => ?_⟩
  · simp only [step, fetch, hin, hl]
    rfl
  · simp only [step, fetch, hin, hl]
  · simp only [step, fetch, hin]
    rfl
  · simp only [step, fetch, hin]

/-- From the invariant a step answers a state of the invariant or is refused. -/
theorem step_inv {s : State} (hinv : s.Inv) : (∃ t, step s = .next t ∧ t.Inv) ∨ ∃ x, step s = .refused x := by
  obtain ⟨hinstr, hbad, hrst, hidle⟩ := stepRunsDecodedInstruction s s.inputs.tail
  match hin : s.inputs with
  | [] => exact .inl ⟨s, hidle hin, hinv⟩
  | .rst :: rest =>
    rw [hin] at hrst
    exact .inl ⟨_, hrst rfl, decClear_inv (DecState.inv_wf hinv)⟩
  | .line l :: rest =>
    rw [hin] at hinstr hbad
    match hl : decode l with
    | .error e => exact .inr ⟨_, hbad l e rfl hl⟩
    | .ok i =>
      rw [hinstr l i rfl hl]
      obtain hnext | ⟨f, -, -, hrefused⟩ := exec_inv i (s := s.setInputs rest) hinv
      · exact .inl hnext
      · exact .inr ⟨_, hrefused⟩

/-- Settles O44: a step that answers a next state has kept the invariant. -/
theorem stepKeepsInvariant : Obligations.StepKeepsInvariant := by
  intro s t hinv hstep
  obtain ⟨t', hstep', hinv'⟩ | ⟨x, hrefused⟩ := step_inv hinv
  · cases hstep.symm.trans hstep'
    exact hinv'
  · cases hstep.symm.trans hrefused

/-- Settles O45: a step answers a next state or a refusal. -/
theorem stepNeverFaults : Obligations.StepNeverFaults := by
  intro s x hinv hfault
  obtain ⟨t, hstep, -⟩ | ⟨y, hrefused⟩ := step_inv hinv
  · cases hfault.symm.trans hstep
  · cases hfault.symm.trans hrefused

/-- Settles O43: the reset state is cleared and its payload buffer is empty. -/
theorem invariantAtReset : Obligations.InvariantAtReset :=
  (DecState.inv_searching_iff (.inl rfl)).mpr ⟨rfl, rfl, rfl, reset_pbuf_wf⟩

/-! ### Independence of the units (R41, R143) -/

/-- Settles O49: each unit's instructions act on that unit's state and add one response. -/
theorem unitsTouchOnlyTheirState : Obligations.UnitsTouchOnlyTheirState := by
  intro i s t hexec
  cases hu : i.unit
  case crc =>
    obtain ⟨g, heq⟩ := exec_crcUnit hu
    cases hexec.symm.trans (heq s)
    exact ⟨fun _ => rfl, fun h => absurd rfl h, rfl, _, rfl⟩
  case decoder =>
    obtain ⟨g, heq, -⟩ := exec_decoderUnit hu
    obtain ⟨ds, r, -, rfl⟩ := finishDec_next ((heq s).symm.trans hexec)
    exact ⟨fun h => absurd rfl h, fun _ => rfl, rfl, _, rfl⟩
  case encoder =>
    obtain ⟨r, heq⟩ | ⟨f, -, -, heq⟩ := exec_encoderUnit hu
    · cases hexec.symm.trans (heq s)
      exact ⟨fun _ => rfl, fun _ => rfl, rfl, _, rfl⟩
    · cases hexec.symm.trans (heq s)

/-- The parts of two states that the unit `u` reads are the same. -/
def AgreeOn (u : BlockUnit) (s t : State) : Prop :=
  (u = .decoder → s.dec = t.dec) ∧ (u = .crc → s.crcAcc = t.crcAcc)

theorem AgreeOn.symm {u : BlockUnit} {s t : State} (h : AgreeOn u s t) : AgreeOn u t s :=
  ⟨fun hu => (h.1 hu).symm, fun hu => (h.2 hu).symm⟩

theorem AgreeOn.trans {u : BlockUnit} {s t v : State} (h : AgreeOn u s t) (h' : AgreeOn u t v) : AgreeOn u s v :=
  ⟨fun hu => (h.1 hu).trans (h'.1 hu), fun hu => (h.2 hu).trans (h'.2 hu)⟩

/-- An instruction reads its own unit's state alone: where that agrees, it completes with the same response and
leaves the same unit state. -/
theorem exec_agree {i : Instr} {s t s' : State} {r : Response} (hexec : exec i s = .next t)
    (hr : t.outcomes = s.outcomes ++ [r]) (hagree : AgreeOn i.unit s s') :
    ∃ t', exec i s' = .next t' ∧ t'.outcomes = s'.outcomes ++ [r] ∧ AgreeOn i.unit t t' := by
  obtain ⟨hdec, hcrc⟩ := hagree
  cases hu : i.unit <;> simp only [hu, reduceCtorEq, false_implies, true_implies] at hdec hcrc
  case crc =>
    obtain ⟨g, heq⟩ := exec_crcUnit hu
    cases hexec.symm.trans (heq s)
    obtain rfl : (g s.crcAcc).2 = r := by simpa using hr
    exact ⟨_, heq s', by simp [hcrc], by simp [AgreeOn, hcrc]⟩
  case decoder =>
    obtain ⟨g, heq, -⟩ := exec_decoderUnit hu
    obtain ⟨ds, r', hg, rfl⟩ := finishDec_next ((heq s).symm.trans hexec)
    obtain rfl : r' = r := by simpa using hr
    exact ⟨_, by rw [heq, ← hdec, hg, finishDec_ok], rfl, by simp [AgreeOn]⟩
  case encoder =>
    obtain ⟨r', heq⟩ | ⟨f, -, -, heq⟩ := exec_encoderUnit hu
    · cases hexec.symm.trans (heq s)
      obtain rfl : r' = r := by simpa using hr
      exact ⟨_, heq s', rfl, by simp [AgreeOn]⟩
    · cases hexec.symm.trans (heq s)

/-- An instruction of another unit leaves what the unit `u` reads. -/
theorem agreeOn_of_exec {i : Instr} {s t : State} {u : BlockUnit} (hexec : exec i s = .next t) (hu : i.unit ≠ u) :
    AgreeOn u s t := by
  obtain ⟨hdec, hcrc, -, -⟩ := unitsTouchOnlyTheirState i s t hexec
  exact ⟨fun h => (hdec (h ▸ hu)).symm, fun h => (hcrc (h ▸ hu)).symm⟩

/-- Settles O50: each of the two instructions finds its unit's state as it finds it in the other order, and leaves
that of every other unit. -/
theorem unitsCommute : Obligations.UnitsCommute := by
  intro i j s t u r₁ r₂ hne hi hj hr₁ hr₂
  obtain ⟨t', hj', hr₂', hagree_j⟩ := exec_agree hj hr₂ (agreeOn_of_exec hi hne).symm
  obtain ⟨u', hi', hr₁', hagree_i⟩ := exec_agree hi hr₁ (agreeOn_of_exec hj' hne.symm)
  have hagree : ∀ v, AgreeOn v u' u := fun v => by
    by_cases hiv : i.unit = v
    · subst hiv
      exact hagree_i.symm.trans (agreeOn_of_exec hj hne.symm)
    · have hback : AgreeOn v u' t' := (agreeOn_of_exec hi' hiv).symm
      by_cases hjv : j.unit = v
      · subst hjv
        exact hback.trans hagree_j.symm
      · exact hback.trans ((agreeOn_of_exec hj' hjv).symm.trans
          ((agreeOn_of_exec hi hiv).trans (agreeOn_of_exec hj hjv)))
  obtain ⟨-, -, hin_i, -⟩ := unitsTouchOnlyTheirState i s t hi
  obtain ⟨-, -, hin_j, -⟩ := unitsTouchOnlyTheirState j t u hj
  obtain ⟨-, -, hin_j', -⟩ := unitsTouchOnlyTheirState j s t' hj'
  obtain ⟨-, -, hin_i', -⟩ := unitsTouchOnlyTheirState i t' u' hi'
  exact ⟨t', u', hj', hr₂', hi', hr₁', (hagree .decoder).1 rfl, (hagree .crc).2 rfl,
    by rw [hin_i', hin_j', hin_j, hin_i]⟩

end Sys2Proof.Machine
end

section
/-! PROOFS. The CRC unit (40_crc.md): one shift is linear and injective, so is the byte form, and the CRC of a message
determines any one byte of it. -/

namespace Sys2Proof.Machine

/-! ### One shift -/

/-- The feedback of a shift, given the bit shifted out. -/
def feedback (b : Bool) : Word := if b then 0xA001#16 else 0

theorem feedback_xor (a b : Bool) : feedback (a ^^ b) = feedback a ^^^ feedback b := by
  cases a <;> cases b <;> rfl

theorem crcShift_eq (c : Word) : crcShift c = (c >>> 1) ^^^ feedback (c.getLsbD 0) := by
  simp only [crcShift, feedback]
  split <;> simp

theorem crcShift_xor (a b : Word) : crcShift (a ^^^ b) = crcShift a ^^^ crcShift b := by
  simp only [crcShift_eq, BitVec.getLsbD_xor, BitVec.ushiftRight_xor_distrib, feedback_xor]
  ac_rfl

/-- Without feedback a shift is a shift. -/
theorem crcShift_of_even {c : Word} (h : c.getLsbD 0 = false) : crcShift c = c >>> 1 := by
  rw [crcShift_eq, h]
  exact BitVec.xor_zero

/-- Bit 15 of the result is the bit that was shifted out. -/
theorem getLsbD_crcShift_15 (c : Word) : (crcShift c).getLsbD 15 = c.getLsbD 0 := by
  rw [crcShift_eq, BitVec.getLsbD_xor, BitVec.getLsbD_ushiftRight]
  cases c.getLsbD 0 <;> simp [feedback]

theorem crcShift_eq_zero {c : Word} (h : crcShift c = 0) : c = 0 := by
  have h0 : c.getLsbD 0 = false := by rw [← getLsbD_crcShift_15, h]; rfl
  rw [crcShift_of_even h0] at h
  apply BitVec.eq_of_getLsbD_eq
  intro i hi
  cases i with
  | zero => simpa using h0
  | succ i => simpa [BitVec.getLsbD_ushiftRight, Nat.add_comm] using congrArg (·.getLsbD i) h

theorem crcShift_injective : Function.Injective crcShift := fun a b h => by
  have hzero : crcShift (a ^^^ b) = 0 := by rw [crcShift_xor, h, BitVec.xor_self]; rfl
  exact BitVec.xor_eq_zero_iff.mp (crcShift_eq_zero hzero)

/-! ### Eight shifts -/

theorem crcShifts_eq_iterate (n : Nat) (c : Word) : crcShifts n c = crcShift^[n] c := by
  induction n generalizing c with
  | zero => rfl
  | succ n ih => rw [crcShifts_succ, ih, Function.iterate_succ_apply]

theorem crcShifts_succ_outer (n : Nat) (c : Word) : crcShifts (n + 1) c = crcShift (crcShifts n c) := by
  simp only [crcShifts_eq_iterate, Function.iterate_succ_apply']

theorem crcShifts_injective (n : Nat) : Function.Injective (crcShifts n) := by
  rw [funext (crcShifts_eq_iterate n)]
  exact crcShift_injective.iterate n

theorem crcShifts_xor (n : Nat) (a b : Word) : crcShifts n (a ^^^ b) = crcShifts n a ^^^ crcShifts n b := by
  induction n with
  | zero => rfl
  | succ n ih => simp only [crcShifts_succ_outer, ih, crcShift_xor]

/-- Shifts that shift out zeros only are shifts. -/
theorem crcShifts_of_low_zero {n : Nat} {c : Word} (h : ∀ i < n, c.getLsbD i = false) : crcShifts n c = c >>> n := by
  induction n with
  | zero => simp [crcShifts]
  | succ n ih =>
    rw [crcShifts_succ_outer, ih fun i hi => h i (by omega), crcShift_of_even (by simp [h n (by omega)]),
      ← BitVec.shiftRight_add]

/-! ### One byte -/

theorem crcByte_eq (c : Word) (d : Byte) : crcByte c d = crcShifts 8 (c ^^^ d.setWidth 16) := rfl

theorem crcByte_injective_reg (d : Byte) : Function.Injective fun c => crcByte c d := fun _ _ h =>
  (BitVec.xor_left_inj _).mp (crcShifts_injective 8 h)

theorem crcByte_injective_byte (c : Word) : Function.Injective (crcByte c) := fun d e h => by
  have hwide : d.setWidth 16 = e.setWidth 16 := (BitVec.xor_right_inj _).mp (crcShifts_injective 8 h)
  simpa using congrArg (BitVec.setWidth 8) hwide

theorem crcFrom_injective (bs : List Byte) : Function.Injective fun c => crcFrom c bs := by
  induction bs with
  | nil => exact fun _ _ h => h
  | cons d bs ih => exact fun _ _ h => crcByte_injective_reg d (ih h)

/-- Settles O16: injective on a finite set. -/
theorem crcByteBijective : Obligations.CrcByteBijective := fun d =>
  Finite.injective_iff_bijective.mp (crcByte_injective_reg d)

/-- Settles O17: eight shifts are linear and so is the entry of the byte. -/
theorem crcByteLinear : Obligations.CrcByteLinear := by
  refine ⟨by decide, fun a b d e => ?_⟩
  rw [crcByte_eq, crcByte_eq, crcByte_eq, ← crcShifts_xor, BitVec.setWidth_xor]
  congr 1
  ac_rfl

/-- Settles O18: the changed byte changes the register, and the bytes after it keep registers apart. -/
theorem crcDetectsOneChangedByte : Obligations.CrcDetectsOneChangedByte := by
  intro a b d e hne heq
  simp only [crc16_eq, crcFrom_append, crcFrom_cons] at heq
  exact hne (crcByte_injective_byte _ (crcFrom_injective b heq))

/-! ### The residue (R84) -/

/-- What is left of a register when its low byte has been cancelled. -/
theorem crcByte_lo8 (c : Word) : crcByte c (lo8 c) = (hi8 c).setWidth 16 := by
  have hbit : ∀ i, (c ^^^ (lo8 c).setWidth 16).getLsbD i = (!decide (i < 8) && c.getLsbD i) := fun i => by
    by_cases hi : i < 8 <;> simp [lo8, hi]
    omega
  rw [crcByte_eq, crcShifts_of_low_zero fun i hi => by simp [hbit, hi]]
  apply BitVec.eq_of_getLsbD_eq
  intro i hi
  by_cases hlow : i < 8
  · simp [hbit, hi8, hlow, hi]
  · simp [hbit, hi8, hlow, BitVec.getLsbD_of_ge c (8 + i) (by omega)]

theorem crcByte_self (d : Byte) : crcByte (d.setWidth 16) d = 0 := by
  rw [crcByte_eq, BitVec.xor_self]
  decide

theorem crcFrom_lo8_hi8 (c : Word) : crcFrom c [lo8 c, hi8 c] = 0 := by
  rw [crcFrom_cons, crcFrom_cons, crcByte_lo8, crcByte_self, crcFrom_nil]

/-- The residue of a message followed by its CRC, low byte first, is zero. -/
theorem crc16_append_crc (bs : List Byte) : crc16 (bs ++ [lo8 (crc16 bs), hi8 (crc16 bs)]) = 0 := by
  rw [crc16_eq, crcFrom_append]
  exact crcFrom_lo8_hi8 _

/-- Settles O12: the equation of CRC.COMPUTE and the residue. -/
theorem crcComputeFoldsFromInit : Obligations.CrcComputeFoldsFromInit :=
  ⟨fun _ => rfl, fun bs s => ⟨exec_crcCompute bs s, rfl⟩, rfl, crc16_append_crc, by decide +kernel⟩

/-- Settles O13: `crc16` is a left fold, which splits at any point. -/
theorem crc16IsLeftFold : Obligations.Crc16IsLeftFold :=
  ⟨rfl, fun bs d => crcFrom_append _ bs [d], fun a b => crcFrom_append _ a b⟩

/-- Settles O10: the equation of CRC.INIT. -/
theorem crcInitLoadsInit : Obligations.CrcInitLoadsInit := ⟨rfl, exec_crcInit⟩

/-- Settles O11: eight shifts are the iteration of one. -/
theorem crcByteShiftsEightTimes : Obligations.CrcByteShiftsEightTimes := by
  refine ⟨fun _ => rfl, fun d s => ?_, by decide, by decide, by decide, fun c d => by simp [crcByte_eq]⟩
  have hshifts : crcByte s.crcAcc d = crcShift^[8] (s.crcAcc ^^^ d.setWidth 16) := crcShifts_eq_iterate 8 _
  rw [exec_crcByte, hshifts]
  rfl

/-- Settles O15: the fold from CRC_INIT, taken apart at its start and at its end. -/
theorem computeIsInitThenBytes : Obligations.ComputeIsInitThenBytes :=
  ⟨fun s => ⟨_, _, exec_crcCompute [] s, exec_crcInit s, rfl⟩,
    fun s bs d => ⟨_, _, _, exec_crcCompute bs s, exec_crcByte d _, exec_crcCompute (bs ++ [d]) s,
      crcFrom_append _ bs [d]⟩⟩

/-! ### The bit-serial form (R88) -/

/-- One turn of the loop of R88: the message bit enters where the byte form has entered it before. -/
def serialShift (d : Byte) (c : Word) (i : Nat) : Word :=
  if c.getLsbD 0 ^^ d.getLsbD i then (c >>> 1) ^^^ 0xA001#16 else c >>> 1

theorem serialShift_eq (d : Byte) (c : Word) (i : Nat) :
    serialShift d c i = (c >>> 1) ^^^ feedback (c.getLsbD 0 ^^ d.getLsbD i) := by
  simp only [serialShift, feedback]
  split <;> simp

/-- A turn of the loop is a shift of the register with the message bits still to come mixed in. -/
theorem serialShift_xor (d : Byte) (c : Word) (i : Nat) :
    serialShift d c i ^^^ (d.setWidth 16 >>> (i + 1)) = crcShift (c ^^^ (d.setWidth 16 >>> i)) := by
  have hbit : (d.setWidth 16 >>> i).getLsbD 0 = d.getLsbD i := by
    rw [BitVec.getLsbD_ushiftRight, BitVec.getLsbD_setWidth]
    by_cases hi : i < 16
    · simp [hi]
    · simp [hi, BitVec.getLsbD_of_ge d i (by omega)]
  rw [serialShift_eq, crcShift_eq, BitVec.getLsbD_xor, hbit, BitVec.ushiftRight_xor_distrib, BitVec.shiftRight_add]
  ac_rfl

/-- After `n` turns the two forms differ by the message bits still to come. -/
theorem foldl_serialShift (c : Word) (d : Byte) (n : Nat) :
    (List.range n).foldl (serialShift d) c ^^^ (d.setWidth 16 >>> n) = crcShifts n (c ^^^ d.setWidth 16) := by
  induction n with
  | zero => simp [crcShifts]
  | succ n ih => rw [List.range_succ, List.foldl_append, crcShifts_succ_outer, ← ih, ← serialShift_xor]; rfl

/-- Settles O14: after eight turns no message bit is left, so the two forms agree. -/
theorem crcSerialFormAgrees : Obligations.CrcSerialFormAgrees := by
  refine ⟨fun c d => ?_, fun i => ?_, by decide⟩
  · have hnone : d.setWidth 16 >>> 8 = 0#16 := by
      apply BitVec.eq_of_getLsbD_eq
      intro i hi
      simp [BitVec.getLsbD_ushiftRight]
    have hloop := foldl_serialShift c d 8
    rw [hnone, BitVec.xor_zero] at hloop
    exact hloop
  · by_cases hi : i < 16
    · interval_cases i <;> decide
    · rw [BitVec.getLsbD_of_ge _ _ (by omega)]
      simp
      omega

end Sys2Proof.Machine
end

section
/-! PROOFS. One byte and DEC.RESET: the rules of ReadHeader and ReadCrc, what an event carries, when DEC.BYTE stops,
what it leaves unchanged, and the clear. -/

namespace Sys2Proof.Machine

/-- Settles O22: the two equations of a byte in ReadHeader, and the cases of a completed header. -/
theorem readHeaderStep : Obligations.ReadHeaderStep := by
  intro s d hb hps hlt hset
  by_cases hstore : s.dec.hcnt.toNat < 7
  · obtain ⟨hb', hset', hbyte⟩ := decByte_readHeader_store hps hstore d
    obtain rfl : hb' = hb := HeaderBytes.toList_injective (hset'.trans hset.symm)
    refine ⟨_, _, exec_decByte_ok hbyte, rfl, rfl, rfl, ?_⟩
    rw [if_pos hstore]
    exact ⟨rfl, rfl⟩
  · have h7 : s.dec.hcnt = 7 := by bv_omega
    obtain rfl : { s.dec.hbuf with b7 := d } = hb :=
      HeaderBytes.toList_injective (.trans (by rw [h7]; rfl) hset.symm)
    have hbyte := decByte_readHeader_last hps h7 d
    obtain ⟨hlarge, heq⟩ | ⟨hzero, heq⟩ | ⟨hle, hpos, heq⟩ :=
      headerComplete_cases { s.dec with hbuf := { s.dec.hbuf with b7 := d }, hcnt := 8 }
    · refine ⟨_, _, exec_decByte_ok (hbyte.trans (congrArg _ heq)), rfl, rfl, rfl, ?_⟩
      rw [if_neg hstore, if_pos (by exact hlarge)]
      exact ⟨⟨rfl, rfl, rfl, rfl⟩, rfl, rfl⟩
    · refine ⟨_, _, exec_decByte_ok (hbyte.trans (congrArg _ heq)), rfl, rfl, rfl, ?_⟩
      rw [if_neg hstore, if_neg (by rw [hzero]; decide), if_pos (by exact hzero)]
      exact ⟨rfl, rfl⟩
    · refine ⟨_, _, exec_decByte_ok (hbyte.trans (congrArg _ heq)), rfl, rfl, rfl, ?_⟩
      rw [if_neg hstore, if_neg (by exact BitVec.not_lt.mpr hle), if_neg (by exact hpos)]
      exact ⟨rfl, rfl⟩

/-- Settles O24: the two equations of a byte in ReadCrc. -/
theorem readCrcStep : Obligations.ReadCrcStep := by
  intro s d hps hle
  refine ⟨fun h0 => exec_decByte_ok (decByte_readCrc_first hps h0 d), fun h1 => ?_⟩
  exact ⟨_, _, exec_decByte_ok (decByte_readCrc_last hps h1 hle d), ⟨rfl, rfl, rfl, rfl⟩, rfl, rfl, rfl, rfl⟩

/-- Everything an event can be: the eighth header byte announces too much, or the second CRC byte ends a frame. -/
theorem decByte_some {ds ds' : DecState} {d : Byte} {e : Event} (hinv : ds.inv = true)
    (h : decByte ds d = .ok (ds', some e)) :
    (ds.ps = .readHeader ∧ e = .err .frameTooLarge (u16le ds.hbuf.b6 d)) ∨
    (ds.ps = .readCrc ∧ ds.ccnt = 1 ∧
      let p := payloadPrefix ds ds.hdr.payloadLength.toNat
      let computed := crc16 (ds.hbuf.toList ++ p)
      e = if computed = u16le ds.cbuf.b0 d then .frame ⟨ds.hdr, p⟩ else .err .crcMismatch computed) := by
  cases hps : ds.ps
  case seekSof1 => cases h.symm.trans (decByte_seekSof1 hps d)
  case seekSof2 => cases h.symm.trans (decByte_seekSof2 hps d)
  case readHeader =>
    by_cases hstore : ds.hcnt.toNat < 7
    · obtain ⟨hb, -, hbyte⟩ := decByte_readHeader_store hps hstore d
      cases h.symm.trans hbyte
    · have hlt := DecState.inv_readHeader hinv hps
      have hbyte := h.symm.trans (decByte_readHeader_last hps (by bv_omega) d)
      obtain ⟨-, heq⟩ | ⟨-, heq⟩ | ⟨-, -, heq⟩ :=
        headerComplete_cases { ds with hbuf := { ds.hbuf with b7 := d }, hcnt := 8 } <;>
        cases hbyte.trans (congrArg Except.ok heq)
      exact .inl ⟨rfl, rfl⟩
  case readPayload =>
    obtain ⟨hlt, hle, -⟩ := DecState.inv_readPayload hinv hps
    cases h.symm.trans (decByte_readPayload hps (by omega) d)
  case readCrc =>
    obtain ⟨-, hle, hlt⟩ := DecState.inv_readCrc hinv hps
    by_cases h0 : ds.ccnt = 0
    · cases h.symm.trans (decByte_readCrc_first hps h0 d)
    · have h1 : ds.ccnt = 1 := by bv_omega
      cases h.symm.trans (decByte_readCrc_last hps h1 hle d)
      exact .inr ⟨rfl, h1, rfl⟩

/-- Settles O27: the two kinds of event, and the two results of the CRC's comparison. -/
theorem eventsCarry : Obligations.EventsCarry := by
  intro s t d e hinv hexec hout p computed
  obtain ⟨hps, rfl⟩ | ⟨hps, h1, rfl⟩ := decByte_some hinv (decByte_of_exec hexec hout)
  · simp [hps, eq_comm]
  · by_cases heq : computed = u16le s.dec.cbuf.b0 d <;> simp [hps, h1, computed, p, heq, eq_comm]

/-! ### When DEC.BYTE stops -/

theorem setHeaderByte_eq_none {h : HeaderBytes} {i : Nat} {d : Byte} : setHeaderByte h i d = none ↔ 8 ≤ i := by
  rw [Option.eq_none_iff_forall_ne_some]
  refine ⟨fun hnone => ?_, fun hi h' hset => by have := setHeaderByte_some.mp hset; omega⟩
  by_contra hi
  obtain ⟨h', hset⟩ := exists_setHeaderByte h (by omega : i < 8) d
  exact hnone h' hset

theorem setCrcByte_eq_none {c : CrcBytes} {i : Nat} {d : Byte} : setCrcByte c i d = none ↔ 2 ≤ i := by
  match i with
  | 0 | 1 | n + 2 => simp [setCrcByte]

theorem memWrite_eq_none {m : Memory} {a : Nat} {d : Byte} : memWrite m a d = none ↔ 4096 ≤ a := by
  rw [memWrite, payloadCells_eq, ← not_lt]
  split <;> simp [*]

theorem memRead_eq_none {m : Memory} {n : Nat} : memRead m n = none ↔ 4096 < n := by
  rw [memRead, payloadCells_eq, ← not_le]
  split <;> simp [*]

theorem readHeaderByte_error {ds : DecState} {d : Byte} {x : Fault} :
    readHeaderByte ds d = .error x ↔ x = .headerIndex ∧ 8 ≤ ds.hcnt.toNat := by
  rw [← setHeaderByte_eq_none (h := ds.hbuf) (d := d), readHeaderByte]
  cases setHeaderByte ds.hbuf ds.hcnt.toNat d
  case none => simp [eq_comm]
  case some hb =>
    dsimp only
    split <;> simp

theorem readPayloadByte_error {ds : DecState} {d : Byte} {x : Fault} :
    readPayloadByte ds d = .error x ↔ x = .payloadIndex ∧ 4096 ≤ ds.pcnt.toNat := by
  rw [← memWrite_eq_none (m := ds.pbuf) (d := d), readPayloadByte]
  cases memWrite ds.pbuf ds.pcnt.toNat d
  case none => simp [eq_comm]
  case some m =>
    dsimp only
    split <;> simp

theorem crcComplete_error {ds : DecState} {x : Fault} :
    crcComplete ds = .error x ↔ x = .payloadIndex ∧ 4096 < ds.hdr.payloadLength.toNat := by
  rw [← memRead_eq_none (m := ds.pbuf), crcComplete]
  cases memRead ds.pbuf ds.hdr.payloadLength.toNat
  case none => simp [eq_comm]
  case some p =>
    dsimp only
    split <;> simp

theorem readCrcByte_error {ds : DecState} {d : Byte} {x : Fault} :
    readCrcByte ds d = .error x ↔ (x = .payloadIndex ∧ ds.ccnt = 1 ∧ 4096 < ds.hdr.payloadLength.toNat) ∨
      (x = .crcIndex ∧ 2 ≤ ds.ccnt.toNat) := by
  rw [← setCrcByte_eq_none (c := ds.cbuf) (d := d), readCrcByte]
  cases hset : setCrcByte ds.cbuf ds.ccnt.toNat d
  case none =>
    have hge := setCrcByte_eq_none.mp hset
    have hne : ds.ccnt ≠ 1#2 := by bv_omega
    simp [hne, eq_comm]
  case some cb =>
    obtain ⟨hlt, -⟩ := setCrcByte_some.mp hset
    dsimp only
    split
    next hfirst =>
      have hne : ds.ccnt ≠ 1#2 := by simp only [crcLen] at hfirst; bv_omega
      simp [hne]
    next hlast =>
      have h1 : ds.ccnt = 1#2 := by simp only [crcLen] at hlast; bv_omega
      simp [h1, crcComplete_error]

/-- Settles O29: the parse state selects the byte's rule, and each rule stops at its own buffer's end. -/
theorem faultsExactlyOutsideBuffers : Obligations.FaultsExactlyOutsideBuffers := by
  intro s d x
  have hfault : exec (.decByte d) s = .fault x ↔ decByte s.dec d = .error x := by
    rw [exec_decByte]
    match decByte s.dec d with
    | .ok (ds, o) => simp [finishDec_ok]
    | .error y => simp [finishDec_error]
  rw [hfault, BitVec.lt_def]
  cases hps : s.dec.ps
  case seekSof1 => simp [decByte_seekSof1 hps]
  case seekSof2 => simp [decByte_seekSof2 hps]
  case readHeader => simp [decByte, hps, readHeaderByte_error]
  case readPayload => simp [decByte, hps, readPayloadByte_error]
  case readCrc => simp [decByte, hps, readCrcByte_error]

/-! ### What DEC.BYTE leaves unchanged (R107) -/

theorem headerComplete_frame (ds : DecState) : (headerComplete ds).1.pbuf = ds.pbuf ∧
    (headerComplete ds).1.hbuf = ds.hbuf ∧ (headerComplete ds).1.cbuf = ds.cbuf := by
  obtain ⟨-, heq⟩ | ⟨-, heq⟩ | ⟨-, -, heq⟩ := headerComplete_cases ds <;> rw [heq] <;> exact ⟨rfl, rfl, rfl⟩

/-- What one byte stores: a payload cell in ReadPayload, a header cell in ReadHeader, a CRC cell in ReadCrc, each
where its counter is, and `hdr` with the eighth header byte; through a clear as well. -/
theorem decByte_stores {ds ds' : DecState} {d : Byte} {o : Option Event} (h : decByte ds d = .ok (ds', o)) :
    (ds'.pbuf = ds.pbuf ∨ ds.ps = .readPayload ∧ ds'.pbuf = ds.pbuf.write ds.pcnt.toNat d) ∧
    (ds'.hbuf = ds.hbuf ∨ ds.ps = .readHeader ∧ ds'.hbuf.toList = ds.hbuf.toList.set ds.hcnt.toNat d) ∧
    (ds'.cbuf = ds.cbuf ∨ ds.ps = .readCrc ∧ ds.ccnt.toNat < 2 ∧
      [ds'.cbuf.b0, ds'.cbuf.b1] = [ds.cbuf.b0, ds.cbuf.b1].set ds.ccnt.toNat d) ∧
    (ds'.hdr = ds.hdr ∨ ds.ps = .readHeader ∧ ds.hcnt = 7) := by
  obtain ⟨-, -, rfl⟩ | ⟨-, -, rfl⟩ | ⟨hb, hps, hset, hheader⟩ | ⟨hps, -, -, rfl⟩ | ⟨cb, hps, hset, hcrc⟩ :=
    decByte_ok h
  case inl => exact ⟨.inl rfl, .inl rfl, .inl rfl, .inl rfl⟩
  case inr.inl => split <;> exact ⟨.inl rfl, .inl rfl, .inl rfl, .inl rfl⟩
  case inr.inr.inl =>
    obtain ⟨hlt, hlist⟩ := setHeaderByte_some.mp hset
    obtain ⟨-, -, rfl⟩ | ⟨hge, hdone⟩ := hheader
    · exact ⟨.inl rfl, .inr ⟨hps, hlist⟩, .inl rfl, .inl rfl⟩
    · obtain ⟨hp, hh, hc⟩ := headerComplete_frame { ds with hbuf := hb, hcnt := ds.hcnt + 1 }
      obtain rfl := congrArg Prod.fst hdone
      exact ⟨.inl hp, .inr ⟨hps, (congrArg HeaderBytes.toList hh).trans hlist⟩, .inl hc, .inr ⟨hps, by bv_omega⟩⟩
  case inr.inr.inr.inl =>
    dsimp only
    split <;> exact ⟨.inr ⟨hps, rfl⟩, .inl rfl, .inl rfl, .inl rfl⟩
  case inr.inr.inr.inr =>
    have hcell := setCrcByte_some.mp hset
    obtain ⟨-, -, rfl⟩ | ⟨-, hdone⟩ := hcrc
    · exact ⟨.inl rfl, .inl rfl, .inr ⟨hps, hcell⟩, .inl rfl⟩
    · obtain ⟨rfl, -, -⟩ := crcComplete_ok hdone
      exact ⟨.inl rfl, .inl rfl, .inr ⟨hps, hcell⟩, .inl rfl⟩

/-- A byte changes no payload cell but the one it is stored to. -/
theorem decByte_pbuf {ds ds' : DecState} {d : Byte} {o : Option Event} (h : decByte ds d = .ok (ds', o)) {a : Nat}
    (ha : storeIndex ds ≠ some a) : ds'.pbuf.read a = ds.pbuf.read a := by
  obtain ⟨hsame | ⟨hps, hwrite⟩, -, -, -⟩ := decByte_stores h
  · rw [hsame]
  · have hne : a ≠ ds.pcnt.toNat := fun heq => ha (by rw [storeIndex, if_pos hps, heq])
    rw [hwrite, Memory.read_write_other _ d hne]

/-- Settles O51: what one byte stores, buffer by buffer. -/
theorem decByteFrame : Obligations.DecByteFrame := by
  intro s t d hexec
  rw [exec_decByte] at hexec
  obtain ⟨ds, o, hbyte, rfl⟩ := finishDec_next hexec
  obtain ⟨-, hh, hc, hhdr⟩ := decByte_stores hbyte
  refine ⟨fun a ha => decByte_pbuf hbyte ha, fun i hi => ?_, fun h0 => ?_, fun h1 => ?_, fun h7 => ?_, rfl, rfl⟩
  · obtain hsame | ⟨hps, hlist⟩ := hh
    · rw [respond_dec, setDec_dec, hsame]
    · rw [respond_dec, setDec_dec, hlist, List.getElem?_set_ne fun heq => hi ⟨hps, heq.symm⟩]
  · obtain hsame | ⟨hps, hlt, hcells⟩ := hc
    · exact congrArg CrcBytes.b0 hsame
    · have hsecond : s.dec.ccnt = 1 := by
        have : s.dec.ccnt ≠ 0 := fun h => h0 ⟨hps, h⟩
        bv_omega
      rw [hsecond] at hcells
      exact (List.cons.inj hcells).1
  · obtain hsame | ⟨hps, hlt, hcells⟩ := hc
    · exact congrArg CrcBytes.b1 hsame
    · have hfirst : s.dec.ccnt = 0 := by
        have : s.dec.ccnt ≠ 1 := fun h => h1 ⟨hps, h⟩
        bv_omega
      rw [hfirst] at hcells
      exact (List.cons.inj (List.cons.inj hcells).2).1
  · exact hhdr.resolve_right h7

/-! ### The clear, and the signals -/

/-- Settles O9: reset and DEC.RESET are the clear, and a byte that returned an event has cleared. -/
theorem resetsClearDecoder : Obligations.ResetsClearDecoder := by
  refine ⟨⟨⟨rfl, rfl, rfl, rfl⟩, rfl⟩, fun s rest hin => ?_, fun s => ?_, fun s t d e hexec hout => ?_⟩
  · obtain ⟨-, -, hrst, -⟩ := stepRunsDecodedInstruction s rest
    exact ⟨_, hrst hin, ⟨rfl, rfl, rfl, rfl⟩, rfl, rfl, by simp [State.decOutcome]⟩
  · exact ⟨_, exec_decReset s, ⟨rfl, rfl, rfl, rfl⟩, rfl, by simp [State.decOutcome]⟩
  · obtain ⟨-, hcrc, -, -⟩ := unitsTouchOnlyTheirState _ s t hexec
    exact ⟨decByte_some_cleared (decByte_of_exec hexec hout), hcrc nofun⟩

/-- Settles O19: the equation of DEC.RESET, and a cleared state is its own clear. -/
theorem decResetClears : Obligations.DecResetClears := by
  refine ⟨rfl, exec_decReset, fun s hcleared => ?_⟩
  obtain ⟨hps, hh, hp, hc⟩ := hcleared
  have hsame : decClear s.dec = s.dec := by rw [decClear, ← hps, ← hh, ← hp, ← hc]
  rw [exec_decReset, hsame]
  rfl

/-- Settles O30: each signal is read off the outcome's constructor. -/
theorem signalsExclusive : Obligations.SignalsExclusive := by
  refine ⟨⟨rfl, rfl, rfl, rfl, rfl⟩, fun _ => ⟨rfl, rfl, rfl, rfl, rfl⟩, fun _ _ => ⟨rfl, rfl, rfl, rfl⟩,
    fun _ => ⟨rfl, rfl⟩, fun o => ?_, fun s t d o _ hout => by simp [State.decOutcome, hout]⟩
  match o with
  | none | some (.frame _) => simp [frmValid, errValid, errCode, errInfo, frmOut]
  | some (.err .frameTooLarge _) | some (.err .crcMismatch _) =>
    simp [frmValid, errValid, errCode, errInfo, frmOut, ErrReason.code]

end Sys2Proof.Machine
end

section
/-! PROOFS. A chunk, byte after byte, on the machine (R100 to R107): equations of DEC.FEED, fragments, noise, the
bytes an announced frame takes, and what a chunk stores. -/

namespace Sys2Proof

/-! ### The two header maps (R51) -/

@[simp] theorem FrameHeader.parse_bytes (h : FrameHeader) : h.bytes.parse = h := by
  simp [FrameHeader.bytes, HeaderBytes.parse]

@[simp] theorem HeaderBytes.bytes_parse (b : HeaderBytes) : b.parse.bytes = b := by
  simp [FrameHeader.bytes, HeaderBytes.parse]

end Sys2Proof

namespace Sys2Proof.Machine

/-- Settles O7: the two maps undo each other field by field. -/
theorem headerMapsInverse : Obligations.HeaderMapsInverse := ⟨FrameHeader.parse_bytes, HeaderBytes.bytes_parse⟩

/-! ### The chunk as a sequence of bytes -/

/-- Settles O31: the two equations of DEC.FEED. -/
theorem feedIsByteSteps : Obligations.FeedIsByteSteps := by
  refine ⟨fun _ => rfl, fun _ => rfl, fun s t u d bs o es hbyte ho hfeed hes => ?_⟩
  obtain ⟨-, hcrc, hin, -⟩ := unitsTouchOnlyTheirState _ s t hbyte
  obtain ⟨-, hcrc', hin', -⟩ := unitsTouchOnlyTheirState _ t u hfeed
  rw [exec_decFeed_ok (feedBytes_cons (decByte_of_exec hbyte ho) (feedBytes_of_exec hfeed hes)),
    hcrc' nofun, hcrc nofun, hin', hin]
  rfl

/-- Two chunks one after the other are one chunk (R102). -/
theorem feedBytes_append {ds ds1 ds2 : DecState} {a b : List Byte} {e₁ e₂ : List Event}
    (ha : feedBytes ds a = .ok (ds1, e₁)) (hb : feedBytes ds1 b = .ok (ds2, e₂)) :
    feedBytes ds (a ++ b) = .ok (ds2, e₁ ++ e₂) := by
  induction a generalizing ds e₁ with
  | nil =>
    cases ha
    exact hb
  | cons d a ih =>
    obtain ⟨ds', o, es, hbyte, hrest, rfl⟩ := feedBytes_cons_ok ha
    rw [List.append_assoc]
    exact feedBytes_cons hbyte (ih hrest)

/-- Settles O32: both parts complete from the invariant, and so does their concatenation. -/
theorem fragmentationInvariance : Obligations.FragmentationInvariance := by
  intro s a b hinv
  obtain ⟨ds1, ha, hinv1, -⟩ := feedBytes_refined hinv a
  obtain ⟨ds2, hb, -, -⟩ := feedBytes_refined hinv1 b
  exact ⟨_, _, _, _, exec_decFeed_ok ha, rfl, exec_decFeed_ok hb, rfl, exec_decFeed_ok (feedBytes_append ha hb)⟩

/-- Noise leaves a decoder in SeekSof1 as it is (R93). -/
theorem feedBytes_noise {ds : DecState} (hps : ds.ps = .seekSof1) {noise : List Byte} (hn : 0xA5#8 ∉ noise) :
    feedBytes ds noise = .ok (ds, []) := by
  induction noise with
  | nil => rfl
  | cons d noise ih =>
    obtain ⟨hd, hrest⟩ := not_or.mp (mt List.mem_cons.mpr hn)
    have hbyte : decByte ds d = .ok (ds, none) := by
      rw [decByte_seekSof1 hps, if_neg (Ne.symm hd), ← hps]
    exact feedBytes_cons hbyte (ih hrest)

/-- Settles O33: a run of noise leaves the decoder as it is. -/
theorem noiseIsDiscarded : Obligations.NoiseIsDiscarded := fun _ _ hps hn =>
  exec_decFeed_ok (feedBytes_noise hps hn)

/-! ### An oversized header (R64) -/

theorem decByte_sof1 {ds : DecState} (hs : ds.Searching) :
    decByte ds 0xA5#8 = .ok ({ ds with ps := .seekSof2 }, none) := by
  obtain hps | hps := hs
  · exact decByte_seekSof1 hps _
  · rw [decByte_seekSof2 hps, if_neg (by decide), if_pos rfl, ← hps]

/-- The eight bytes of a header, from the start of ReadHeader. -/
theorem feedBytes_header {ds : DecState} (hps : ds.ps = .readHeader) (h0 : ds.hcnt = 0) (h : HeaderBytes) :
    feedBytes ds h.toList = .ok ((headerComplete { ds with hbuf := h, hcnt := 8 }).1,
      (headerComplete { ds with hbuf := h, hcnt := 8 }).2.toList) := by
  have hseven : feedBytes ds [h.b0, h.b1, h.b2, h.b3, h.b4, h.b5, h.b6] =
      .ok ({ ds with hbuf := { h with b7 := ds.hbuf.b7 }, hcnt := 7 }, []) := by
    obtain ⟨ps, hbuf, hcnt, pbuf, pcnt, cbuf, ccnt, hdr⟩ := ds
    subst hps h0
    rfl
  have heighth := decByte_readHeader_last (ds := { ds with hbuf := { h with b7 := ds.hbuf.b7 }, hcnt := 7 })
    (by exact hps) rfl h.b7
  have hlast := feedBytes_cons heighth (feedBytes_nil _)
  rw [List.append_nil] at hlast
  exact feedBytes_append hseven hlast

/-- The SOF pair and a header, from between frames. -/
theorem feedBytes_sof_header {ds : DecState} (hs : ds.Searching) (h : HeaderBytes) :
    feedBytes ds ([0xA5#8, 0x5A#8] ++ h.toList) =
      .ok ((headerComplete { ds with ps := .readHeader, hbuf := h, hcnt := 8 }).1,
        (headerComplete { ds with ps := .readHeader, hbuf := h, hcnt := 8 }).2.toList) := by
  have hsof2 : decByte { ds with ps := .seekSof2 } 0x5A#8 = .ok ({ ds with ps := .readHeader, hcnt := 0 }, none) :=
    decByte_seekSof2 rfl _
  exact feedBytes_cons (decByte_sof1 hs) (feedBytes_cons hsof2 (feedBytes_header rfl rfl h))

/-- Settles O38: the eighth header byte raises FrameTooLarge, and no byte of SOF pair or header is stored in `pbuf`. -/
theorem oversizedHeaderRejected : Obligations.OversizedHeaderRejected := by
  intro h s hs hlarge
  have hfeed := feedBytes_sof_header hs h.bytes
  obtain ⟨-, heq⟩ | ⟨hzero, -⟩ | ⟨hle, -⟩ :=
    headerComplete_cases { s.dec with ps := .readHeader, hbuf := h.bytes, hcnt := 8 }
  · rw [heq] at hfeed
    refine ⟨_, exec_decFeed_ok hfeed, ?_, ⟨rfl, rfl, rfl, rfl⟩, rfl, rfl⟩
    simp
  · simp only [FrameHeader.parse_bytes] at hzero
    rw [hzero] at hlarge
    cases hlarge
  · rw [FrameHeader.parse_bytes] at hle
    exact absurd hlarge (BitVec.not_lt.mpr hle)

/-! ### The bytes an announced frame takes (R104, R105) -/

/-- The bytes still to come of a frame whose header is complete. -/
def bytesLeft (ds : DecState) : Nat :=
  (ds.hdr.payloadLength.toNat - ds.pcnt.toNat) + (2 - ds.ccnt.toNat)

/-- Past the header. -/
def InFrame (ds : DecState) : Prop := ds.ps = .readPayload ∨ ds.ps = .readCrc

theorem bytesLeft_pos {ds : DecState} (hinv : ds.inv = true) (hin : InFrame ds) : 0 < bytesLeft ds := by
  obtain hps | hps := hin
  · obtain ⟨hlt, -, -⟩ := DecState.inv_readPayload hinv hps
    simp only [bytesLeft]
    omega
  · obtain ⟨-, -, hlt⟩ := DecState.inv_readCrc hinv hps
    simp only [bytesLeft]
    omega

/-- Any byte past the header takes one of the bytes left: the last ends the frame with an event, any other is
part of it. -/
theorem decByte_inFrame {ds : DecState} (hinv : ds.inv = true) (hin : InFrame ds) (d : Byte) :
    (∃ ds', decByte ds d = .ok (ds', none) ∧ InFrame ds' ∧ bytesLeft ds = bytesLeft ds' + 1) ∨
    (bytesLeft ds = 1 ∧ ∃ ds' e, decByte ds d = .ok (ds', some e)) := by
  obtain hps | hps := hin
  · obtain ⟨hlt, hle, -⟩ := DecState.inv_readPayload hinv hps
    obtain ⟨-, -, hc, -⟩ := (DecState.inv_readPayload_iff hps).mp hinv
    have hbyte := decByte_readPayload hps (by omega) d
    have hnext : (ds.pcnt + 1).toNat = ds.pcnt.toNat + 1 := by rw [payloadCells_eq] at hle; bv_omega
    refine .inl ?_
    split at hbyte
    · refine ⟨_, hbyte, .inr rfl, ?_⟩
      simp only [bytesLeft, hnext, hc]
      omega
    · refine ⟨_, hbyte, .inl hps, ?_⟩
      simp only [bytesLeft, hnext]
      omega
  · obtain ⟨hfull, hle, hlt⟩ := DecState.inv_readCrc hinv hps
    by_cases h0 : ds.ccnt = 0
    · refine .inl ⟨_, decByte_readCrc_first hps h0 d, .inr hps, ?_⟩
      simp only [bytesLeft, h0, hfull]
      rfl
    · have h1 : ds.ccnt = 1 := by bv_omega
      refine .inr ⟨?_, _, _, decByte_readCrc_last hps h1 hle d⟩
      simp [bytesLeft, h1, hfull]

/-- Fewer bytes than are left stay in the frame. -/
theorem feedBytes_inFrame {ds : DecState} {bs : List Byte} (hinv : ds.inv = true) (hin : InFrame ds)
    (hlt : bs.length < bytesLeft ds) : ∃ ds', feedBytes ds bs = .ok (ds', []) ∧ InFrame ds' := by
  induction bs generalizing ds with
  | nil => exact ⟨ds, rfl, hin⟩
  | cons d bs ih =>
    rw [List.length_cons] at hlt
    obtain ⟨ds1, hbyte, hin1, hleft⟩ | ⟨hone, -⟩ := decByte_inFrame hinv hin d
    · obtain ⟨ds2, hfeed, hin2⟩ := ih (decByte_inv hinv hbyte) hin1 (by omega)
      exact ⟨ds2, feedBytes_cons hbyte hfeed, hin2⟩
    · omega

/-- Exactly the bytes left end the frame with one event. -/
theorem feedBytes_completes {ds : DecState} {bs : List Byte} (hinv : ds.inv = true) (hin : InFrame ds)
    (heq : bs.length = bytesLeft ds) : ∃ ds' e, feedBytes ds bs = .ok (ds', [e]) ∧ ds'.Cleared := by
  induction bs generalizing ds with
  | nil => exact absurd heq (bytesLeft_pos hinv hin).ne
  | cons d bs ih =>
    rw [List.length_cons] at heq
    obtain ⟨ds1, hbyte, hin1, hleft⟩ | ⟨hone, ds1, e, hbyte⟩ := decByte_inFrame hinv hin d
    · obtain ⟨ds2, e, hfeed, hcleared⟩ := ih (decByte_inv hinv hbyte) hin1 (by omega)
      exact ⟨ds2, e, feedBytes_cons hbyte hfeed, hcleared⟩
    · obtain rfl : bs = [] := List.eq_nil_of_length_eq_zero (by omega)
      exact ⟨ds1, e, feedBytes_cons hbyte (feedBytes_nil _), decByte_some_cleared hbyte⟩

/-- Settles O39: the bytes left, counted down. -/
theorem frameTakesItsAnnouncedBytes : Obligations.FrameTakesItsAnnouncedBytes := by
  intro s bs hinv hin
  refine ⟨fun hlt => ?_, fun heq => ?_⟩
  · obtain ⟨ds, hfeed, hin'⟩ := feedBytes_inFrame hinv hin hlt
    exact ⟨_, exec_decFeed_ok hfeed, rfl, hin'⟩
  · obtain ⟨ds, e, hfeed, hcleared⟩ := feedBytes_completes hinv hin heq
    exact ⟨_, e, exec_decFeed_ok hfeed, rfl, hcleared⟩

/-! ### What a chunk stores (R40, R107) -/

theorem feedStores_cons {ds ds1 : DecState} {d : Byte} {o : Option Event} (h : decByte ds d = .ok (ds1, o))
    (bs : List Byte) : feedStores ds (d :: bs) = (storeIndex ds).toList ++ feedStores ds1 bs := by
  simp only [feedStores, h]

/-- The invariant keeps the next store inside the payload buffer. -/
theorem storeIndex_lt {ds : DecState} (hinv : ds.inv = true) {a : Nat} (ha : storeIndex ds = some a) : a < 4096 := by
  rw [storeIndex, Option.ite_none_right_eq_some] at ha
  obtain ⟨hps, ha⟩ := ha
  cases ha
  obtain ⟨hlt, hle, -⟩ := DecState.inv_readPayload hinv hps
  rw [payloadCells_eq] at hle
  omega

/-- From the invariant every byte of a chunk is stored inside the payload buffer. -/
theorem mem_feedStores_lt {ds : DecState} {bs : List Byte} {a : Nat} (hinv : ds.inv = true)
    (ha : a ∈ feedStores ds bs) : a < 4096 := by
  induction bs generalizing ds with
  | nil => cases ha
  | cons d bs ih =>
    obtain ⟨ds1, o, hbyte, hinv1, -⟩ := byteRefined hinv d
    rw [feedStores_cons hbyte, List.mem_append, Option.mem_toList] at ha
    obtain hfirst | hrest := ha
    · exact storeIndex_lt hinv hfirst
    · exact ih hinv1 hrest

/-- Settles O53: by induction over the chunk, whose every byte starts from the invariant. -/
theorem storesStayInPayloadBuffer : Obligations.StoresStayInPayloadBuffer := fun _ _ _ => mem_feedStores_lt

/-- A chunk changes no payload cell that no byte of it is stored to. -/
theorem feedBytes_pbuf {ds ds' : DecState} {bs : List Byte} {es : List Event} (h : feedBytes ds bs = .ok (ds', es))
    {a : Nat} (ha : a ∉ feedStores ds bs) : ds'.pbuf.read a = ds.pbuf.read a := by
  induction bs generalizing ds es with
  | nil =>
    cases h
    rfl
  | cons d bs ih =>
    obtain ⟨ds1, o, es1, hbyte, hrest, -⟩ := feedBytes_cons_ok h
    rw [feedStores_cons hbyte, List.mem_append, Option.mem_toList, not_or] at ha
    exact (ih hrest ha.2).trans (decByte_pbuf hbyte ha.1)

/-- Settles O52: DEC.FEED and the FRAME instructions are chunks. -/
theorem decFeedFrame : Obligations.DecFeedFrame := by
  have hchunk : ∀ (s t : State) (bs : List Byte), s.finishDec (feedBytes s.dec bs) .events = .next t →
      (∀ a, a ∉ feedStores s.dec bs → t.dec.pbuf.read a = s.dec.pbuf.read a) ∧
      t.crcAcc = s.crcAcc ∧ t.inputs = s.inputs := fun s t bs hexec => by
    obtain ⟨ds, es, hfeed, rfl⟩ := finishDec_next hexec
    exact ⟨fun a ha => feedBytes_pbuf hfeed ha, rfl, rfl⟩
  exact ⟨hchunk, fun s t y b hexec => hchunk s t _ ((exec_frame y b s).symm.trans hexec)⟩

end Sys2Proof.Machine
end

section
/-! PROOFS. Wire frames (R50): how the encoder and the FRAME instructions write them, what the automaton makes of one,
and what becomes of one with a byte changed. -/

namespace Sys2Proof.Machine

/-! ### The bytes of a wire frame -/

/-- The wire bytes of a frame with header bytes `h`, payload `p` and CRC field `c` (R50). -/
def wireBytes (h : HeaderBytes) (p : List Byte) (c : Word) : List Byte :=
  [0xA5#8, 0x5A#8] ++ (h.toList ++ p) ++ [lo8 c, hi8 c]

theorem encodeFrame_eq (f : Frame) :
    encodeFrame f = wireBytes f.header.bytes f.payload (crc16 (f.header.bytes.toList ++ f.payload)) := rfl

theorem wire_eq (b : FrameBody) (t : FrameType) : b.wire t = wireBytes (b.header t).bytes b.payload b.crc := by
  simp [FrameBody.wire, wireBytes]

@[simp] theorem length_wireBytes (h : HeaderBytes) (p : List Byte) (c : Word) :
    (wireBytes h p c).length = 12 + p.length := by
  simp [wireBytes]
  omega

/-- The event of a whole frame (R97). -/
def verdict (h : HeaderBytes) (p : List Byte) (c : Word) : Event :=
  if crc16 (h.toList ++ p) = c then .frame ⟨h.parse, p⟩ else .err .crcMismatch (crc16 (h.toList ++ p))

/-! ### What the automaton makes of it -/

/-- The views between frames. -/
def DecView.Searching (v : DecView) : Prop := v = .seekSof1 ∨ v = .seekSof2

theorem view_searching {ds : DecState} (hs : ds.Searching) : ds.view.Searching :=
  hs.imp view_seekSof1 view_seekSof2

theorem feed_sof {v : DecView} (hv : v.Searching) : v.feed [0xA5#8, 0x5A#8] = (.readHeader [], []) := by
  obtain rfl | rfl := hv <;> rfl

theorem feed_header (h : HeaderBytes) : (DecView.readHeader []).feed h.toList =
    ((DecView.headerDone h).1, (DecView.headerDone h).2.toList) := by
  have hseven : (DecView.readHeader []).feed [h.b0, h.b1, h.b2, h.b3, h.b4, h.b5, h.b6] =
      (.readHeader [h.b0, h.b1, h.b2, h.b3, h.b4, h.b5, h.b6], []) := rfl
  have hsplit : h.toList = [h.b0, h.b1, h.b2, h.b3, h.b4, h.b5, h.b6] ++ [h.b7] := rfl
  rw [hsplit, feed_append, hseven]
  simp [feed_cons, byte_readHeader_last (hb := h) (h := [h.b0, h.b1, h.b2, h.b3, h.b4, h.b5, h.b6]) hsplit.symm]

theorem feed_payload {h : HeaderBytes} {p bs : List Byte} (hne : bs ≠ [])
    (hlen : p.length + bs.length = h.parse.payloadLength.toNat) :
    (DecView.readPayload h p).feed bs = (.readCrc h (p ++ bs) [], []) := by
  induction bs generalizing p with
  | nil => exact absurd rfl hne
  | cons d bs ih =>
    rw [List.length_cons] at hlen
    by_cases hlast : bs = []
    · subst hlast
      have hfull : (p ++ [d]).length = h.parse.payloadLength.toNat := by simpa using hlen
      simp only [feed_cons, DecView.byte, if_pos hfull, feed_nil]
      rfl
    · have hpos := List.length_pos_iff.mpr hlast
      have hmore : (p ++ [d]).length ≠ h.parse.payloadLength.toNat := by
        rw [List.length_append, List.length_singleton]
        omega
      simp only [feed_cons, DecView.byte, if_neg hmore]
      rw [ih hlast (by rw [List.length_append, List.length_singleton]; omega), List.append_assoc]
      rfl

/-- A legal header and the payload it announces. -/
theorem feed_header_payload {h : HeaderBytes} {p : List Byte} (hlen : p.length = h.parse.payloadLength.toNat)
    (hle : h.parse.payloadLength ≤ 4096#16) :
    (DecView.readHeader []).feed (h.toList ++ p) = (.readCrc h p [], []) := by
  rw [feed_append, feed_header, DecView.headerDone, if_neg (BitVec.not_lt.mpr hle)]
  split
  next hzero =>
    obtain rfl : p = [] := List.eq_nil_of_length_eq_zero (by rw [hlen, hzero]; rfl)
    rfl
  next hpos =>
    have hne : p ≠ [] := by
      rintro rfl
      exact hpos (BitVec.eq_of_toNat_eq hlen.symm)
    rw [feed_payload hne (by simpa using hlen)]
    rfl

/-- A whole wire frame gives exactly one event. -/
theorem feed_wireBytes {v : DecView} (hv : v.Searching) {h : HeaderBytes} {p : List Byte}
    (hlen : p.length = h.parse.payloadLength.toNat) (hle : h.parse.payloadLength ≤ 4096#16) (c : Word) :
    v.feed (wireBytes h p c) = (.seekSof1, [verdict h p c]) := by
  have hcrc : (DecView.readCrc h p []).feed [lo8 c, hi8 c] = (.seekSof1, [verdict h p c]) := by
    rw [feed_cons, byte_readCrc_first, feed_cons, byte_readCrc_last, frameDone_eq, u16le_lo8_hi8]
    rfl
  rw [wireBytes, feed_append, feed_append, feed_sof hv, feed_header_payload hlen hle, hcrc]
  rfl

/-- A decoder between frames takes a whole wire frame with exactly one event. -/
theorem exec_decFeed_wireBytes {s : State} (hinv : s.Inv) (hs : s.dec.Searching) {h : HeaderBytes} {p : List Byte}
    (hlen : p.length = h.parse.payloadLength.toNat) (hle : h.parse.payloadLength ≤ 4096#16) (c : Word) :
    ∃ t, exec (.decFeed (wireBytes h p c)) s = .next t ∧ t.outcomes = s.outcomes ++ [.events [verdict h p c]] ∧
      t.dec.Cleared ∧ t.crcAcc = s.crcAcc ∧ t.inputs = s.inputs :=
  exec_decFeed_cleared hinv (feed_wireBytes (view_searching hs) hlen hle c)

/-- A valid frame as the encoder writes it comes out. -/
theorem feed_encodeFrame {v : DecView} (hv : v.Searching) {f : Frame} (hf : f.Valid) :
    v.feed (encodeFrame f) = (.seekSof1, [.frame f]) := by
  obtain ⟨hlen, hle⟩ := hf
  rw [encodeFrame_eq, feed_wireBytes hv (by simpa using hlen) (by simpa using hle), verdict, if_pos rfl,
    FrameHeader.parse_bytes]

/-- Settles O34: the encoder's bytes are a wire frame with the right CRC. -/
theorem roundTrip : Obligations.RoundTrip := fun f s hf =>
  ⟨encodeFrame f, (exec_encEncode f s).trans (if_pos hf), fun _ hinv hs =>
    exec_decFeed_cleared hinv (feed_encodeFrame (view_searching hs) hf)⟩

/-- Settles O58: a FRAME instruction feeds a wire frame with the CRC field it carries. -/
theorem namedFrameIsReceived : Obligations.NamedFrameIsReceived := by
  intro y b s hwf hinv hs computed
  obtain ⟨hle, hlen⟩ := hwf
  obtain ⟨t, hexec, hout, hcleared, hcrc, hin⟩ := exec_decFeed_wireBytes hinv hs (h := (b.header y).bytes)
    (by rw [FrameHeader.parse_bytes]; exact hlen) (by rw [FrameHeader.parse_bytes]; exact hle) b.crc
  refine ⟨t, ?_, hcleared, hcrc, hin, ?_⟩
  · rw [exec_frame, wire_eq]
    exact hexec
  · rw [hout, verdict, FrameHeader.parse_bytes]

/-- Settles O57: the wire bytes of a named frame, written out. -/
theorem frameIsFeedOfItsWireBytes : Obligations.FrameIsFeedOfItsWireBytes := fun _ _ => ⟨rfl, rfl, rfl, rfl, rfl⟩

/-! ### Noise and stray SOF1 before a frame (R93, R94) -/

theorem feed_of_feedBytes {ds ds' : DecState} {bs : List Byte} {es : List Event} (hinv : ds.inv = true)
    (h : feedBytes ds bs = .ok (ds', es)) : ds.view.feed bs = (ds'.view, es) := by
  obtain ⟨_, hfeed, -, hview⟩ := feedBytes_refined hinv bs
  cases hfeed.symm.trans h
  rw [hview]

theorem feed_replicate_sof1 {v : DecView} (hv : v.Searching) (k : Nat) :
    ∃ v' : DecView, v'.Searching ∧ v.feed (List.replicate k 0xA5#8) = (v', []) := by
  induction k generalizing v with
  | zero => exact ⟨v, hv, rfl⟩
  | succ k ih =>
    have hbyte : v.byte 0xA5#8 = (.seekSof2, none) := by obtain rfl | rfl := hv <;> rfl
    obtain ⟨v', hv', hfeed⟩ := ih (.inr rfl)
    exact ⟨v', hv', by rw [List.replicate_succ, feed_cons, hbyte, hfeed]; rfl⟩

/-- Settles O35: noise and stray SOF1 leave the automaton between frames. -/
theorem noiseThenFrameDecodes : Obligations.NoiseThenFrameDecodes := by
  intro f s noise k hf hinv hps hn
  have hnoise := feed_of_feedBytes hinv (feedBytes_noise hps hn)
  obtain ⟨v, hv, hstray⟩ := feed_replicate_sof1 (view_searching (.inl hps)) k
  obtain ⟨t, hexec, hout, hcleared, -, -⟩ := exec_decFeed_cleared hinv
    (bs := noise ++ List.replicate k 0xA5#8 ++ encodeFrame f) (es := [.frame f])
    (by rw [feed_append, feed_append, hnoise, hstray, feed_encodeFrame hv hf]; rfl)
  exact ⟨t, hexec, hout, hcleared⟩

/-! ### A wire frame with one byte changed (R86, R97, R106) -/

/-- A byte written over another leaves a list unchanged only where they are equal. -/
theorem set_ne_self {bs : List Byte} {i : Nat} {d : Byte} (hi : i < bs.length) (hd : d ≠ bs[i]) : bs.set i d ≠ bs :=
  fun heq => hd (by simpa [hi] using congrArg (·[i]?) heq)

/-- A message with one byte changed has another CRC (R86). -/
theorem crc16_set_ne {bs : List Byte} {i : Nat} {d : Byte} (hne : bs.set i d ≠ bs) : crc16 (bs.set i d) ≠ crc16 bs := by
  by_cases hi : i < bs.length
  · have hd : d ≠ bs[i] := fun heq => hne (by rw [heq, List.set_getElem_self])
    have hsplit : bs = bs.take i ++ bs[i] :: bs.drop (i + 1) := by simp
    rw [List.set_eq_take_append_cons_drop, if_pos hi]
    conv_rhs => rw [hsplit]
    exact crcDetectsOneChangedByte _ _ _ _ hd
  · exact absurd (List.set_eq_of_length_le (by omega)) hne

/-- A change behind the header is a change of the payload. -/
theorem toList_append_set (h : HeaderBytes) (p : List Byte) (i : Nat) (d : Byte) :
    (h.toList ++ p).set (8 + i) d = h.toList ++ p.set i d := by
  rw [List.set_append_right _ _ (by simp)]
  simp

/-- A change behind the SOF pair and before the CRC field is a change of the bytes the CRC covers. -/
theorem wireBytes_set_covered {h : HeaderBytes} {p : List Byte} {i : Nat} (hi : i < 8 + p.length) (c : Word) (d : Byte) :
    (wireBytes h p c).set (2 + i) d = [0xA5#8, 0x5A#8] ++ (h.toList ++ p).set i d ++ [lo8 c, hi8 c] := by
  rw [wireBytes, List.set_append_left _ _ (by simp; omega), List.set_append_right _ _ (by simp)]
  simp

theorem wireBytes_set_payload {p : List Byte} {i : Nat} (hi : i < p.length) (h : HeaderBytes) (c : Word) (d : Byte) :
    (wireBytes h p c).set (10 + i) d = wireBytes h (p.set i d) c := by
  rw [(by omega : 10 + i = 2 + (8 + i)), wireBytes_set_covered (by omega), toList_append_set, wireBytes]

/-- A change of the CRC field is a change of its value. -/
theorem wireBytes_set_crc (h : HeaderBytes) (p : List Byte) (c : Word) {j : Nat} (hj : j < 2) (d : Byte) :
    ∃ c', (wireBytes h p c).set (10 + p.length + j) d = wireBytes h p c' := by
  have hset : (wireBytes h p c).set (10 + p.length + j) d =
      [0xA5#8, 0x5A#8] ++ (h.toList ++ p) ++ [lo8 c, hi8 c].set j d := by
    rw [wireBytes, List.set_append_right _ _ (by simp; omega)]
    congr 2
    simp
    omega
  rw [hset]
  interval_cases j
  · exact ⟨u16le d (hi8 c), by simp [wireBytes]⟩
  · exact ⟨u16le (lo8 c) d, by simp [wireBytes]⟩

theorem setHeaderByte_payloadLength {h h' : HeaderBytes} {i : Nat} {d : Byte} (hset : setHeaderByte h i d = some h')
    (h6 : i ≠ 6) (h7 : i ≠ 7) : h'.parse.payloadLength = h.parse.payloadLength := by
  match i with
  | 0 | 1 | 2 | 3 | 4 | 5 => cases hset; rfl
  | 6 | 7 => contradiction
  | i + 8 => cases hset

/-- The covered bytes with one changed that is no length byte are those of a frame of the same length. -/
theorem covered_set {h : HeaderBytes} {p : List Byte} {i : Nat} (h6 : i ≠ 6) (h7 : i ≠ 7) (d : Byte) :
    ∃ (h' : HeaderBytes) (p' : List Byte), (h.toList ++ p).set i d = h'.toList ++ p' ∧
      h'.parse.payloadLength = h.parse.payloadLength ∧ p'.length = p.length := by
  by_cases hi : i < 8
  · obtain ⟨h', hset⟩ := exists_setHeaderByte h hi d
    obtain ⟨-, hlist⟩ := setHeaderByte_some.mp hset
    exact ⟨h', p, by rw [hlist, List.set_append_left _ _ (by simpa using hi)],
      setHeaderByte_payloadLength hset h6 h7, rfl⟩
  · obtain ⟨i, rfl⟩ := Nat.exists_eq_add_of_le (not_lt.mp hi)
    exact ⟨h, p.set i d, toList_append_set h p i d, rfl, List.length_set⟩

/-- A wire frame with the right CRC, changed in one byte outside the SOF pair and the length, is a wire frame of the
same length with a wrong one. -/
theorem wireBytes_damaged {h : HeaderBytes} {p : List Byte} {k : Nat} {d : Byte}
    (hne : (wireBytes h p (crc16 (h.toList ++ p))).set k d ≠ wireBytes h p (crc16 (h.toList ++ p)))
    (h2 : 2 ≤ k) (h8 : k ≠ 8) (h9 : k ≠ 9) (hk : k < 12 + p.length) :
    ∃ (h' : HeaderBytes) (p' : List Byte) (c' : Word), (wireBytes h p (crc16 (h.toList ++ p))).set k d = wireBytes h' p' c' ∧
      h'.parse.payloadLength = h.parse.payloadLength ∧ p'.length = p.length ∧ crc16 (h'.toList ++ p') ≠ c' := by
  by_cases hcovered : k < 10 + p.length
  · obtain ⟨i, rfl⟩ := Nat.exists_eq_add_of_le h2
    obtain ⟨h', p', hset, hlen, hplen⟩ := covered_set (h := h) (p := p) (i := i) (by omega) (by omega) d
    rw [wireBytes_set_covered (by omega)] at hne ⊢
    have hchanged : (h.toList ++ p).set i d ≠ h.toList ++ p := fun heq => hne (by rw [heq, wireBytes])
    refine ⟨h', p', _, by rw [hset, wireBytes], hlen, hplen, ?_⟩
    rw [← hset]
    exact crc16_set_ne hchanged
  · obtain ⟨j, rfl⟩ := Nat.exists_eq_add_of_le (not_lt.mp hcovered)
    obtain ⟨c', hset⟩ := wireBytes_set_crc h p (crc16 (h.toList ++ p)) (by omega : j < 2) d
    exact ⟨h, p, c', hset, rfl, rfl, fun heq => hne (by rw [hset, heq])⟩

/-- Settles O37: what arrives is a wire frame of the same length whose CRC field is wrong. -/
theorem oneByteDamageRejected : Obligations.OneByteDamageRejected := by
  intro f s k d hf hinv hs hk h2 h8 h9 hd
  obtain ⟨hlen, hle⟩ := hf
  obtain ⟨h', p', c', hset, hlen', hplen, hwrong⟩ :=
    wireBytes_damaged (set_ne_self hk hd) h2 h8 h9 (by simpa [encodeFrame_eq] using hk)
  rw [FrameHeader.parse_bytes] at hlen'
  obtain ⟨t, hexec, hout, hcleared, -, -⟩ := exec_decFeed_wireBytes hinv hs (h := h') (p := p')
    (by rw [hplen, hlen', hlen]) (by rw [hlen']; exact hle) c'
  rw [encodeFrame_eq, hset]
  exact ⟨t, _, hexec, by rw [hout, verdict, if_neg hwrong], hcleared⟩

/-- Settles O36: the changed payload has another CRC, and the next frame finds a cleared decoder. -/
theorem resyncAfterBadCrc : Obligations.ResyncAfterBadCrc := by
  intro f g s i d hf hg hinv hps hi hd
  obtain ⟨hlen, hle⟩ := hf
  have hne : crc16 (f.header.bytes.toList ++ f.payload.set i d) ≠ crc16 (f.header.bytes.toList ++ f.payload) := by
    rw [← toList_append_set]
    refine crc16_set_ne ?_
    rw [toList_append_set]
    exact fun heq => set_ne_self hi hd (List.append_cancel_left heq)
  have hdamaged := feed_wireBytes (view_searching (.inl hps)) (h := f.header.bytes) (p := f.payload.set i d)
    (by simpa using hlen) (by simpa using hle) (crc16 (f.header.bytes.toList ++ f.payload))
  obtain ⟨t, hexec, hout, hcleared, -, -⟩ := exec_decFeed_cleared hinv
    (bs := (encodeFrame f).set (10 + i) d ++ encodeFrame g)
    (by rw [encodeFrame_eq f, wireBytes_set_payload hi, feed_append, hdamaged, feed_encodeFrame (.inl rfl) hg])
  refine ⟨t, hexec, ?_, hcleared⟩
  rw [hout, verdict, if_neg hne]
  rfl

/-! ### What comes out was on the wire (R97, R98) -/

/-- The bytes of the frame being received, from its SOF1 on. -/
def DecView.received : DecView → List Byte
  | .seekSof1 => []
  | .seekSof2 => [0xA5#8]
  | .readHeader h => [0xA5#8, 0x5A#8] ++ h
  | .readPayload h p => [0xA5#8, 0x5A#8] ++ h.toList ++ p
  | .readCrc h p c => [0xA5#8, 0x5A#8] ++ h.toList ++ p ++ c

theorem received_headerDone (h : HeaderBytes) :
    (DecView.headerDone h).1.received <:+ [0xA5#8, 0x5A#8] ++ h.toList := by
  simp only [DecView.headerDone]
  split
  · exact List.nil_suffix
  · split <;> simp [DecView.received]

/-- After a byte the frame being received ends with it, or starts anew. -/
theorem received_byte (v : DecView) (d : Byte) : (v.byte d).1.received <:+ v.received ++ [d] := by
  match v with
  | .seekSof1 =>
    simp only [DecView.byte]
    split <;> simp [DecView.received, *]
  | .seekSof2 =>
    simp only [DecView.byte]
    split
    · simp [DecView.received, *]
    · split
      · exact ⟨[0xA5#8], by simp [DecView.received, *]⟩
      · exact List.nil_suffix
  | .readHeader h =>
    simp only [DecView.byte]
    split
    next heq =>
      rw [DecView.received, List.append_assoc, heq]
      exact received_headerDone _
    next => simp [DecView.received]
  | .readPayload h p =>
    simp only [DecView.byte]
    split <;> simp [DecView.received]
  | .readCrc h p c =>
    simp only [DecView.byte]
    split
    · rw [frameDone_eq]
      exact List.nil_suffix
    · simp [DecView.received]

/-- The frame being received is the end of what was received. -/
theorem received_feed (v : DecView) (bs : List Byte) : (v.feed bs).1.received <:+ v.received ++ bs := by
  induction bs generalizing v with
  | nil => simp
  | cons d bs ih =>
    rw [feed_cons, List.append_cons]
    obtain ⟨before, hbefore⟩ := received_byte v d
    exact (ih _).trans ⟨before, by rw [← List.append_assoc, hbefore]⟩

/-- A frame that comes out is valid, and its byte ends its wire bytes as the encoder writes them. -/
theorem decByte_frame {ds ds' : DecState} {d : Byte} {f : Frame} (hinv : ds.inv = true)
    (h : decByte ds d = .ok (ds', some (.frame f))) : f.Valid ∧ ds.view.received ++ [d] = encodeFrame f := by
  obtain ⟨-, he⟩ | ⟨hps, h1, he⟩ := decByte_some hinv h
  · cases he
  · obtain ⟨-, hfull, -, hle, hhdr, -⟩ := (DecState.inv_readCrc_iff hps).mp hinv
    dsimp only at he
    split at he
    next hcrc =>
      cases he
      refine ⟨⟨length_payloadPrefix _ _, hle⟩, ?_⟩
      rw [view_readCrc hps, h1, hfull, encodeFrame_eq, hhdr, HeaderBytes.bytes_parse, ← hhdr, hcrc]
      simp [DecView.received, wireBytes]
    next => cases he

/-- Settles O40: the last byte of a frame ends the bytes of the frame being received, which end what was fed. -/
theorem emittedFrameWasOnTheWire : Obligations.EmittedFrameWasOnTheWire := by
  intro s t u bs d f hinv hps hfeed hbyte hout
  obtain ⟨ds, hbytes, hinv', hview⟩ := feedBytes_refined hinv bs
  cases hfeed.symm.trans (exec_decFeed_ok hbytes)
  obtain ⟨hvalid, hwire⟩ := decByte_frame hinv' (decByte_of_exec hbyte hout)
  obtain ⟨before, hbefore⟩ := received_feed s.dec.view bs
  rw [← hview, view_seekSof1 hps] at hbefore
  exact ⟨hvalid, before, by rw [← hwire, ← List.append_assoc, hbefore]; rfl⟩

/-- Every frame among the events of a chunk is valid (R21). -/
theorem feedBytes_valid {ds ds' : DecState} {bs : List Byte} {es : List Event} {f : Frame} (hinv : ds.inv = true)
    (h : feedBytes ds bs = .ok (ds', es)) (hf : .frame f ∈ es) : f.Valid := by
  induction bs generalizing ds es with
  | nil =>
    cases h
    cases hf
  | cons d bs ih =>
    obtain ⟨ds1, o, es1, hbyte, hrest, rfl⟩ := feedBytes_cons_ok h
    rw [List.mem_append, Option.mem_toList] at hf
    obtain hfirst | hlater := hf
    · cases hfirst
      exact (decByte_frame hinv hbyte).1
    · exact ih (decByte_inv hinv hbyte) hrest hlater

/-- Settles O41: every frame among the events is that of one byte. -/
theorem emittedFramesValid : Obligations.EmittedFramesValid := fun _ _ _ _ _ hinv hexec hout hf =>
  feedBytes_valid hinv (feedBytes_of_exec hexec hout) hf

/-! ### The encoder (R120 to R122) -/

/-- Settles O54: the wire bytes, written out. -/
theorem encodeReturnsWireBytes : Obligations.EncodeReturnsWireBytes := fun f s hf =>
  (exec_encEncode f s).trans (if_pos hf)

/-- Settles O55: validity decides. -/
theorem encodeRefusesInvalidFrames : Obligations.EncodeRefusesInvalidFrames := by
  intro f s
  rw [exec_encEncode]
  by_cases hf : f.Valid
  · rw [if_pos hf]
    exact ⟨fun hnot => absurd hf hnot, nofun⟩
  · rw [if_neg hf]
    exact ⟨fun _ => rfl, fun _ => hf⟩

/-- The header and the payload can be read back from the wire bytes. -/
theorem wireBytes_injective {h h' : HeaderBytes} {p p' : List Byte} {c c' : Word}
    (heq : wireBytes h p c = wireBytes h' p' c') : h = h' ∧ p = p' := by
  simp only [wireBytes, List.append_assoc] at heq
  obtain ⟨hh, hrest⟩ := List.append_inj (List.append_cancel_left heq) rfl
  exact ⟨HeaderBytes.toList_injective hh, (List.append_inj' hrest rfl).1⟩

theorem wireBytes_drop_two (h : HeaderBytes) (p : List Byte) (c : Word) :
    (wireBytes h p c).drop 2 = (h.toList ++ p) ++ [lo8 c, hi8 c] := rfl

theorem wireBytes_drop_ten (h : HeaderBytes) (p : List Byte) (c : Word) :
    (wireBytes h p c).drop 10 = p ++ [lo8 c, hi8 c] := rfl

/-- The last two bytes are the CRC field, low byte first. -/
theorem u16le_wireBytes_getD (h : HeaderBytes) (p : List Byte) (c : Word) :
    u16le ((wireBytes h p c).getD (10 + p.length) 0) ((wireBytes h p c).getD (11 + p.length) 0) = c := by
  have hfront : ([0xA5#8, 0x5A#8] ++ (h.toList ++ p)).length = 10 + p.length := by
    simp
    omega
  rw [wireBytes, List.getD_append_right _ _ _ _ (by omega), List.getD_append_right _ _ _ _ (by omega), hfront,
    Nat.sub_self, (by omega : 11 + p.length - (10 + p.length) = 1)]
  exact u16le_lo8_hi8 c

/-- Settles O56: the layout of the wire bytes, the residue of the bytes behind the SOF pair, and the two parts read
back. -/
theorem encodedFrameLayout : Obligations.EncodedFrameLayout := by
  refine ⟨fun f hf => ?_, fun f g _ _ heq => ?_⟩
  · obtain ⟨hlen, -⟩ := hf
    have hcovered : 8 + f.payload.length = (f.header.bytes.toList ++ f.payload).length := by simp
    simp only [encodeFrame_eq, ← hlen, wireBytes_drop_two, wireBytes_drop_ten, u16le_wireBytes_getD]
    exact ⟨length_wireBytes _ _ _, rfl, rfl, rfl, List.take_left, by rw [hcovered, List.take_left],
      crc16_append_crc _⟩
  · obtain ⟨hheader, hpayload⟩ := wireBytes_injective heq
    have hparsed := congrArg HeaderBytes.parse hheader
    rw [FrameHeader.parse_bytes, FrameHeader.parse_bytes] at hparsed
    cases f
    cases g
    cases hparsed
    cases hpayload
    rfl

end Sys2Proof.Machine
end

section
/-! PROOFS. The two ways of addressing the block (30_encoding.md): the rows of the table are disjoint, the decoder takes
back what the encoder writes, and what decodes is an encoding or a chunk fed as it is. -/

namespace Sys2Proof

open Sys2Proof.Machine

/-! ### The rows of the table (R71) -/

theorem typeCode_injective {t t' : FrameType} (h : typeCode t = typeCode t') : t = t' := by
  cases t <;> cases t' <;> revert h <;> decide

theorem mem_frameRows {r : FrameRow} : r ∈ frameRows ↔ ∃ t, r = frameRow t := by
  constructor
  · intro h
    simp only [frameRows, List.mem_cons, List.not_mem_nil, or_false] at h
    rcases h with rfl | rfl | rfl | rfl | rfl <;> exact ⟨_, rfl⟩
  · rintro ⟨t, rfl⟩
    cases t <;> simp [frameRows]

/-- What a `FRAME` row asks of the first bytes: the SOF pair, and the type's code after any version. -/
theorem frameRow_selectedBy {t : FrameType} {bytes : List Byte} (h : (frameRow t).selectedBy bytes = true) :
    ∃ v rest, bytes = 0xA5#8 :: 0x5A#8 :: v :: typeCode t :: rest := by
  match bytes, h with
  | b0 :: b1 :: b2 :: b3 :: rest, h =>
    have hmask : ∀ b : Byte, b &&& 255#8 = b := fun b => BitVec.and_allOnes
    simp only [FrameRow.selectedBy, frameRow, matchBytes, Bool.and_eq_true, beq_iff_eq] at h
    obtain ⟨h0, h1, -, h3, -⟩ := h
    exact ⟨b2, rest, by rw [← (hmask b0).symm.trans h0, ← (hmask b1).symm.trans h1, ← (hmask b3).symm.trans h3]⟩
  | [], h | [_], h | [_, _], h | [_, _, _], h => simp [FrameRow.selectedBy, frameRow, matchBytes] at h

/-- Settles O4: an `OP` row's mask is all ones, so its pattern is the code; a `FRAME` row fixes the type byte. -/
theorem tableRowsDisjoint : Obligations.TableRowsDisjoint := by
  refine ⟨by decide, fun r₁ h₁ r₂ h₂ bytes hsel₁ hsel₂ => ?_⟩
  obtain ⟨t₁, rfl⟩ := mem_frameRows.mp h₁
  obtain ⟨t₂, rfl⟩ := mem_frameRows.mp h₂
  obtain ⟨v₁, rest₁, hbytes₁⟩ := frameRow_selectedBy hsel₁
  obtain ⟨v₂, rest₂, hbytes₂⟩ := frameRow_selectedBy hsel₂
  have hsame := hbytes₁.symm.trans hbytes₂
  simp only [List.cons.injEq] at hsame
  obtain ⟨-, -, -, hcode, -⟩ := hsame
  rw [typeCode_injective hcode]

/-- A named type's row is the one its bytes select. -/
theorem frameTypeOf_some {bytes : List Byte} {t : FrameType} (h : frameTypeOf bytes = some t) :
    (frameRow t).selectedBy bytes = true := by
  simp only [frameTypeOf, Option.map_eq_some_iff] at h
  obtain ⟨r, hfind, rfl⟩ := h
  obtain ⟨t, rfl⟩ := mem_frameRows.mp (List.mem_of_find?_eq_some hfind)
  exact List.find?_some (p := (FrameRow.selectedBy · bytes)) hfind

/-! ### Whole frames -/

/-- The fields of a chunk whose header announces the payload it carries before the CRC field. -/
theorem frameBodyOf_whole {l0 l1 : Byte} {payload : List Byte} (hle : u16le l0 l1 ≤ 4096#16)
    (hlen : payload.length = (u16le l0 l1).toNat) (s0 s1 v y i0 i1 q0 q1 c0 c1 : Byte) :
    frameBodyOf (s0 :: s1 :: v :: y :: i0 :: i1 :: q0 :: q1 :: l0 :: l1 :: (payload ++ [c0, c1])) =
      some ⟨v, u16le i0 i1, u16le q0 q1, u16le l0 l1, payload, u16le c0 c1⟩ := by
  simp only [frameBodyOf, ← hlen, List.drop_left, List.take_left]
  exact if_pos ⟨hle, List.length_append⟩

/-- The fields of a whole frame are those its wire bytes were written from. -/
theorem frameBodyOf_wire {b : FrameBody} (hwf : b.WellFormed) (t : FrameType) : frameBodyOf (b.wire t) = some b := by
  obtain ⟨hle, hlen⟩ := hwf
  have hwhole := frameBodyOf_whole (l0 := lo8 b.payloadLength) (l1 := hi8 b.payloadLength) (payload := b.payload)
    (by rw [u16le_lo8_hi8]; exact hle) (by rw [u16le_lo8_hi8]; exact hlen) config.sof1 config.sof2 b.version
    (typeCode t) (lo8 b.messageId) (hi8 b.messageId) (lo8 b.sequence) (hi8 b.sequence) (lo8 b.crc) (hi8 b.crc)
  simp only [u16le_lo8_hi8] at hwhole
  exact hwhole

/-- A chunk that has the fields of a whole frame is made of them. -/
theorem frameBodyOf_some {bytes : List Byte} {b : FrameBody} (h : frameBodyOf bytes = some b) :
    b.WellFormed ∧ ∃ s0 s1 y, bytes = s0 :: s1 :: b.version :: y :: lo8 b.messageId :: hi8 b.messageId ::
      lo8 b.sequence :: hi8 b.sequence :: lo8 b.payloadLength :: hi8 b.payloadLength ::
      (b.payload ++ [lo8 b.crc, hi8 b.crc]) := by
  match bytes, h with
  | s0 :: s1 :: v :: y :: i0 :: i1 :: q0 :: q1 :: l0 :: l1 :: rest, h =>
    simp only [frameBodyOf] at h
    split at h
    next hwhole =>
      obtain ⟨hle, hlen⟩ := hwhole
      split at h
      next c0 c1 hcrc =>
        cases h
        refine ⟨⟨hle, by rw [List.length_take, hlen]; exact min_eq_left (Nat.le_add_right _ _)⟩, s0, s1, y, ?_⟩
        simp only [lo8_u16le, hi8_u16le, ← hcrc, List.take_append_drop]
      next => cases h
    next => cases h

/-- Bytes that have the fields of a whole frame and select the row of its type are its wire bytes. -/
theorem wire_of_frameBodyOf {bytes : List Byte} {b : FrameBody} {t : FrameType} (hb : frameBodyOf bytes = some b)
    (ht : frameTypeOf bytes = some t) : b.WellFormed ∧ b.wire t = bytes := by
  obtain ⟨hwf, s0, s1, y, hfields⟩ := frameBodyOf_some hb
  obtain ⟨v, rest, hrow⟩ := frameRow_selectedBy (frameTypeOf_some ht)
  have hsame := hfields.symm.trans hrow
  simp only [List.cons.injEq] at hsame
  obtain ⟨rfl, rfl, -, rfl, -⟩ := hsame
  exact ⟨hwf, hfields.symm⟩

/-! ### Decoding and encoding -/

/-- The command code of an operation (R67). -/
def Operation.code : Operation → BitVec 4
  | .crcInit => 0x0
  | .crcByte => 0x1
  | .crcCompute => 0x2
  | .decReset => 0x4
  | .decByte => 0x5
  | .decFeed => 0x6
  | .encEncode => 0x8

/-- An operation is selected by its own code alone. -/
theorem operationOf_eq_some {cmd : BitVec 4} {op : Operation} : operationOf cmd = some op ↔ cmd = op.code := by
  constructor
  · revert cmd
    cases op <;> decide
  · rintro rfl
    cases op <;> rfl

theorem frameOperandOf_operand (f : Frame) : frameOperandOf (f.header.operand ++ f.payload) = some f := by
  simp [FrameHeader.operand, frameOperandOf]

theorem encode_frame (t : FrameType) (b : FrameBody) : encode (.frame t b) = .receive (b.wire t) := by
  cases t <;> rfl

theorem wellFormed_frame {t : FrameType} {b : FrameBody} : (Instr.frame t b).WellFormed ↔ b.WellFormed := by
  cases t <;> exact decide_eq_true_iff

/-- A whole named frame decodes to its FRAME instruction. -/
theorem decode_wire {b : FrameBody} (hwf : b.WellFormed) (t : FrameType) :
    decode (.receive (b.wire t)) = .ok (.frame t b) := by
  simp only [decode, decodeReceive, Laws.SelectsRow.frameTypeOf_wire, frameBodyOf_wire hwf]

/-- Settles O5: each command row gives its operands back, and a whole named frame its fields. -/
theorem decodeOfEncode : Obligations.DecodeOfEncode := by
  intro i hwf
  cases i
  case crcInit | crcByte | crcCompute | decReset | decByte | decFeed => rfl
  case encEncode f =>
    have hop : operationOf 0x8 = some .encEncode := operationOf_eq_some.mpr rfl
    simp only [encode, decode, hop, decodeOperand, frameOperandOf_operand]
  case frameAlive b => exact decode_wire (wellFormed_frame (t := .alive).mp hwf) .alive
  case frameCommand b => exact decode_wire (wellFormed_frame (t := .command).mp hwf) .command
  case frameResponse b => exact decode_wire (wellFormed_frame (t := .response).mp hwf) .response
  case frameTelemetry b => exact decode_wire (wellFormed_frame (t := .telemetry).mp hwf) .telemetry
  case frameEvent b => exact decode_wire (wellFormed_frame (t := .event).mp hwf) .event

theorem operand_of_frameOperandOf {bs : List Byte} {f : Frame} (h : frameOperandOf bs = some f) :
    f.header.operand ++ f.payload = bs := by
  match bs, h with
  | v :: y :: i1 :: i0 :: q1 :: q0 :: l1 :: l0 :: payload, h =>
    cases h
    simp [FrameHeader.operand]

/-- An operand that an operation takes is the one its instruction is encoded with. -/
theorem encode_of_decodeOperand {op : Operation} {bs : List Byte} {i : Instr} (h : decodeOperand op bs = .ok i) :
    i.WellFormed ∧ encode i = .command op.code bs := by
  match op, bs, h with
  | .crcInit, [], h | .crcByte, [_], h | .crcCompute, _, h | .decReset, [], h | .decByte, [_], h | .decFeed, _, h =>
    cases h
    exact ⟨rfl, rfl⟩
  | .encEncode, bs, h =>
    simp only [decodeOperand] at h
    split at h
    next f hf =>
      cases h
      exact ⟨rfl, congrArg _ (operand_of_frameOperandOf hf)⟩
    next => cases h

/-- Settles O6: a command line is its operation's code and operand, a whole named frame its wire bytes, and any other
chunk is fed as it is. -/
theorem encodeOfDecode : Obligations.EncodeOfDecode := by
  intro l i h
  match l, h with
  | .command cmd operand, h =>
    simp only [decode] at h
    split at h
    next => cases h
    next op hop =>
      obtain ⟨hwf, hencode⟩ := encode_of_decodeOperand h
      exact ⟨hwf, .inl (by rw [hencode, operationOf_eq_some.mp hop])⟩
  | .receive bytes, h =>
    simp only [decode, decodeReceive] at h
    split at h
    next t b ht hb =>
      cases h
      obtain ⟨hwf, hwire⟩ := wire_of_frameBodyOf hb ht
      exact ⟨wellFormed_frame.mpr hwf, .inl (by rw [encode_frame, hwire])⟩
    next =>
      cases h
      exact ⟨rfl, .inr ⟨bytes, rfl, rfl⟩⟩

/-- Settles O1: the decoder, evaluated on each word. -/
theorem sampleWordsDecode : Obligations.SampleWordsDecode := by
  refine ⟨?_, ?_, ?_, ?_, ?_, ?_, ?_, ?_, ?_⟩ <;> rfl

/-- Settles O2: the sixteen codes, and the refusal of a line that does not decode. -/
theorem reservedCodesRefused : Obligations.ReservedCodesRefused := by
  intro cmd
  refine ⟨?_, fun hnone operand rest s hin => ?_⟩
  · revert cmd
    decide
  · obtain ⟨-, hbad, -, -⟩ := stepRunsDecodedInstruction s rest
    exact hbad _ (.reservedCommand cmd) hin (by simp only [decode, hnone])

/-- Settles O3: each operand of a wrong length, by its length. -/
theorem wrongOperandCountRejected : Obligations.WrongOperandCountRejected := by
  intro operand
  refine ⟨fun hlen => ?_, fun hlen => ?_, fun hlen => ?_⟩
  · match operand with
    | _ :: _ => exact ⟨rfl, rfl⟩
  · match operand with
    | [] | _ :: _ :: _ => exact ⟨rfl, rfl⟩
  · match operand with
    | [] | [_] | [_, _] | [_, _, _] | [_, _, _, _] | [_, _, _, _, _] | [_, _, _, _, _, _]
    | [_, _, _, _, _, _, _] => rfl

end Sys2Proof
end
